-- ==== Sys2Proof/Word.lean ====
section
/-! DEFINITION. The word types of the machine.

Every Config register, TDMA register, hardware flop and stream register is a `u32`
(00_scope.md R7); an instruction is one 32-bit word (30_encoding.md R70); a flop has four
bytes (10_state.md R31); a block mask has nine bits (42_streamwait.md R146). -/

namespace Sys2Proof

/-- A `u32`: a register's contents, or an instruction word (00_scope.md R7). -/
abbrev Word := BitVec 32

/-- One byte of a flop (10_state.md R31, 20_memory.md R52). -/
abbrev Byte := BitVec 8

/-- A 9-bit set of block classes, bit `k` being `Bk` (42_streamwait.md R146). -/
abbrev BlockMask := BitVec 9

end Sys2Proof
end

