-- ==== Sys2Proof/Syntax.lean ====
section
/-! DEFINITION. The four instructions (spec/opcode_table.json; 30_encoding.md R72 to R75).

A field that selects among a fixed set of things has a type of exactly those things; an index or
an amount is a natural number whose bound `Instr.WellFormed` checks, because the macros take any
argument and an oversized one is an assembly error (R80). Arguments stand in the macros' order. -/

namespace Sys2Proof

/-- MaskMode (R72): "0=clear mask region first, 1=don't clear". -/
inductive MaskMode
  | clearRegion | keep
deriving DecidableEq, Repr

/-- AluMode (R72, 40_cfgshiftmask.md R103), codes 0 to 7 in this order. -/
inductive AluMode
  | or | and | xor | add | orNot | andNot | xorNot | sub
deriving DecidableEq, Repr

/-- SizeSel (R73): "0=16B, 1=32b, 2=16b, 3=8b", in this order. -/
inductive SizeSel
  | bytes16 | bits32 | bits16 | bits8
deriving DecidableEq, Repr

/-- TargetSel (R73): "0=TDMA, 1=Local Regs, 2=Addr Cntrs, 3=override with ContextId". -/
inductive TargetSel
  | tdma | localRegs | addrCntrs | overrideCtx
deriving DecidableEq, Repr

/-- target_sel (R74): "0=compare phase, 1=compare num_msgs". -/
inductive CondIndex
  | phase | numMsgs
deriving DecidableEq, Repr

/-- One constructor per row of spec/opcode_table.json, in the table's order. -/
inductive Instr
  /-- REG2FLOP (0x48), 41_reg2flop.md R120. -/
  | reg2flop (sizeSel : SizeSel) (targetSel : TargetSel) (byteOffset contextId2 flopIndex regIndex : Nat)
  /-- STREAMWAIT (0xA7), 42_streamwait.md R140. -/
  | streamwait (stallRes : BlockMask) (targetValue : Nat) (targetSel : CondIndex) (waitStreamSel : Fin 4)
  /-- STREAMWRCFG (0xB7), 43_streamwrcfg.md R160. -/
  | streamwrcfg (streamIdSel : Fin 4) (streamRegAddr cfgReg : Nat)
  /-- CFGSHIFTMASK (0xB8), 40_cfgshiftmask.md R100. -/
  | cfgshiftmask (maskMode : MaskMode) (aluMode : AluMode) (maskWidth rotateAmt scratchIndex cfgIndex : Nat)
deriving DecidableEq, Repr

/-- An instruction as an assembler writes it (30_encoding.md R81): a name and its arguments in the
order of `TT_OP_<NAME>`, each any number, so that an argument too large for its field can be written
and refused (R80). -/
inductive MacroCall
  | reg2flop (sizeSel targetSel byteOffset contextId2 flopIndex regIndex : Nat)
  | streamwait (stallRes targetValue targetSel waitStreamSel : Nat)
  | streamwrcfg (streamIdSel streamRegAddr cfgReg : Nat)
  | cfgshiftmask (maskMode aluMode maskWidth rotateAmt scratchIndex cfgIndex : Nat)
deriving DecidableEq, Repr

end Sys2Proof
end

