-- ==== Sys2Proof/WellFormed.lean ====
section
/-! DEFINITION. Well-formed instructions: every argument is below 2 to the width of its field
(30_encoding.md R80: "requires every argument to be below `2^width` of its field"). -/

namespace Sys2Proof

/-- Every argument fits its field (30_encoding.md R72 to R75, R80). -/
def Instr.wellFormed : Instr → Bool
  | .reg2flop _ _ byteOffset contextId2 flopIndex regIndex =>
      decide (byteOffset < 4) && decide (contextId2 < 4) && decide (flopIndex < 1024)
        && decide (regIndex < 64)
  | .streamwait _ targetValue _ _ => decide (targetValue < 2048)
  | .streamwrcfg _ streamRegAddr cfgReg => decide (streamRegAddr < 1024) && decide (cfgReg < 2048)
  | .cfgshiftmask _ _ maskWidth rotateAmt scratchIndex cfgIndex =>
      decide (maskWidth < 32) && decide (rotateAmt < 32) && decide (scratchIndex < 4)
        && decide (cfgIndex < 256)

/-- The check as a proposition. -/
abbrev Instr.WellFormed (i : Instr) : Prop := i.wellFormed = true

/-- Every argument of a call is below 2 to the width of its field; a larger one is an assembly error
(30_encoding.md R80). The widths are those of R72 to R75. -/
def MacroCall.inRange : MacroCall → Bool
  | .reg2flop sizeSel targetSel byteOffset contextId2 flopIndex regIndex =>
      decide (sizeSel < 2 ^ 2) && decide (targetSel < 2 ^ 2) && decide (byteOffset < 2 ^ 2)
        && decide (contextId2 < 2 ^ 2) && decide (flopIndex < 2 ^ 10) && decide (regIndex < 2 ^ 6)
  | .streamwait stallRes targetValue targetSel waitStreamSel =>
      decide (stallRes < 2 ^ 9) && decide (targetValue < 2 ^ 11) && decide (targetSel < 2 ^ 1)
        && decide (waitStreamSel < 2 ^ 2)
  | .streamwrcfg streamIdSel streamRegAddr cfgReg =>
      decide (streamIdSel < 2 ^ 2) && decide (streamRegAddr < 2 ^ 10) && decide (cfgReg < 2 ^ 11)
  | .cfgshiftmask maskMode aluMode maskWidth rotateAmt scratchIndex cfgIndex =>
      decide (maskMode < 2 ^ 1) && decide (aluMode < 2 ^ 3) && decide (maskWidth < 2 ^ 5)
        && decide (rotateAmt < 2 ^ 5) && decide (scratchIndex < 2 ^ 2) && decide (cfgIndex < 2 ^ 8)

end Sys2Proof
end

