-- ==== Sys2Proof/Decode.lean ====
section
/-! DEFINITION. Decoding and encoding (30_encoding.md R70 to R84).

An instruction is one 32-bit word, given whole: no byte order arises (20_memory.md R52). The
decoder is total on all words and refuses by name (R78, R79, R83); the encoder is the macro of
R72 to R75. -/

namespace Sys2Proof

/-- `w[hi:lo]` of 00_scope.md R6: `(w >> lo) mod 2^(hi-lo+1)`. -/
def bitField (w : Word) (hi lo : Nat) : Nat := (w.toNat >>> lo) % 2 ^ (hi - lo + 1)

/-- Why the decoder refuses a word (60_exceptions.md R181). -/
inductive DecodeError
  /-- The opcode is none of the four (30_encoding.md R79). -/
  | opcodeNotInScope
  /-- STREAMWAIT with bit 2 set, or STREAMWRCFG with bit 23 set (30_encoding.md R78). -/
  | reservedBitSet
deriving DecidableEq, Repr

/-- What the decoder answers. -/
inductive Decoded
  | instr (i : Instr)
  | refused (e : DecodeError)
deriving DecidableEq, Repr

/-- MaskMode from its code (R72). -/
def MaskMode.ofCode : Nat → MaskMode
  | 0 => .clearRegion
  | _ => .keep

/-- MaskMode's code. -/
def MaskMode.code : MaskMode → Nat
  | .clearRegion => 0
  | .keep => 1

/-- AluMode from its code (40_cfgshiftmask.md R103). -/
def AluMode.ofCode : Nat → AluMode
  | 0 => .or
  | 1 => .and
  | 2 => .xor
  | 3 => .add
  | 4 => .orNot
  | 5 => .andNot
  | 6 => .xorNot
  | _ => .sub

/-- AluMode's code. -/
def AluMode.code : AluMode → Nat
  | .or => 0
  | .and => 1
  | .xor => 2
  | .add => 3
  | .orNot => 4
  | .andNot => 5
  | .xorNot => 6
  | .sub => 7

/-- SizeSel from its code (R73). -/
def SizeSel.ofCode : Nat → SizeSel
  | 0 => .bytes16
  | 1 => .bits32
  | 2 => .bits16
  | _ => .bits8

/-- SizeSel's code. -/
def SizeSel.code : SizeSel → Nat
  | .bytes16 => 0
  | .bits32 => 1
  | .bits16 => 2
  | .bits8 => 3

/-- TargetSel from its code (R73). -/
def TargetSel.ofCode : Nat → TargetSel
  | 0 => .tdma
  | 1 => .localRegs
  | 2 => .addrCntrs
  | _ => .overrideCtx

/-- TargetSel's code. -/
def TargetSel.code : TargetSel → Nat
  | .tdma => 0
  | .localRegs => 1
  | .addrCntrs => 2
  | .overrideCtx => 3

/-- target_sel from its code (R74). -/
def CondIndex.ofCode : Nat → CondIndex
  | 0 => .phase
  | _ => .numMsgs

/-- target_sel's code. -/
def CondIndex.code : CondIndex → Nat
  | .phase => 0
  | .numMsgs => 1

/-- Operand fields of a CFGSHIFTMASK word (R72, R83). -/
def decodeCfgshiftmask (w : Word) : Instr :=
  .cfgshiftmask (.ofCode (bitField w 23 23)) (.ofCode (bitField w 22 20)) (bitField w 19 15)
    (bitField w 14 10) (bitField w 9 8) (bitField w 7 0)

/-- Operand fields of a REG2FLOP word (R73, R83). -/
def decodeReg2flop (w : Word) : Instr :=
  .reg2flop (.ofCode (bitField w 23 22)) (.ofCode (bitField w 21 20)) (bitField w 19 18)
    (bitField w 17 16) (bitField w 15 6) (bitField w 5 0)

/-- Operand fields of a STREAMWAIT word (R74, R83). -/
def decodeStreamwait (w : Word) : Instr :=
  .streamwait (BitVec.ofNat 9 (bitField w 23 15)) (bitField w 14 4) (.ofCode (bitField w 3 3))
    (Fin.ofNat 4 (bitField w 1 0))

/-- Operand fields of a STREAMWRCFG word (R75, R83). -/
def decodeStreamwrcfg (w : Word) : Instr :=
  .streamwrcfg (Fin.ofNat 4 (bitField w 22 21)) (bitField w 20 11) (bitField w 10 0)

/-- The decoding procedure, total on all 32-bit words (R83). -/
def decode (w : Word) : Decoded :=
  if bitField w 31 24 = 0xB8 then .instr (decodeCfgshiftmask w)
  else if bitField w 31 24 = 0x48 then .instr (decodeReg2flop w)
  else if bitField w 31 24 = 0xA7 then
    if bitField w 2 2 = 1 then .refused .reservedBitSet else .instr (decodeStreamwait w)
  else if bitField w 31 24 = 0xB7 then
    if bitField w 23 23 = 1 then .refused .reservedBitSet else .instr (decodeStreamwrcfg w)
  else .refused .opcodeNotInScope

/-- `TT_OP(opcode, params)` of R71: `(opcode << 24) + params`, a number. -/
def ttOp (opcode params : Nat) : Nat := (opcode <<< 24) + params

/-- The value of `TT_OP_<NAME>(args)` (R72 to R75): shifted arguments added without masking. An
oversized argument carries into the next field up, or from the topmost field into the opcode
(R80). -/
def MacroCall.value : MacroCall → Nat
  | .reg2flop sizeSel targetSel byteOffset contextId2 flopIndex regIndex =>
      ttOp 0x48 ((sizeSel <<< 22) + (targetSel <<< 20) + (byteOffset <<< 18) + (contextId2 <<< 16)
        + (flopIndex <<< 6) + (regIndex <<< 0))
  | .streamwait stallRes targetValue targetSel waitStreamSel =>
      ttOp 0xA7 ((stallRes <<< 15) + (targetValue <<< 4) + (targetSel <<< 3) + (waitStreamSel <<< 0))
  | .streamwrcfg streamIdSel streamRegAddr cfgReg =>
      ttOp 0xB7 ((streamIdSel <<< 21) + (streamRegAddr <<< 11) + (cfgReg <<< 0))
  | .cfgshiftmask maskMode aluMode maskWidth rotateAmt scratchIndex cfgIndex =>
      ttOp 0xB8 ((maskMode <<< 23) + (aluMode <<< 20) + (maskWidth <<< 15) + (rotateAmt <<< 10)
        + (scratchIndex <<< 8) + (cfgIndex <<< 0))

/-- The spec's assembler (R80, R81): the call's word, or none, an assembly error, when an argument
does not fit its field. -/
def assemble (c : MacroCall) : Option Word :=
  if c.inRange then some (BitVec.ofNat 32 c.value) else none

/-- The call that writes an instruction, each choice by its code. -/
def Instr.call : Instr → MacroCall
  | .reg2flop sizeSel targetSel byteOffset contextId2 flopIndex regIndex =>
      .reg2flop sizeSel.code targetSel.code byteOffset contextId2 flopIndex regIndex
  | .streamwait stallRes targetValue targetSel waitStreamSel =>
      .streamwait stallRes.toNat targetValue targetSel.code waitStreamSel.val
  | .streamwrcfg streamIdSel streamRegAddr cfgReg =>
      .streamwrcfg streamIdSel.val streamRegAddr cfgReg
  | .cfgshiftmask maskMode aluMode maskWidth rotateAmt scratchIndex cfgIndex =>
      .cfgshiftmask maskMode.code aluMode.code maskWidth rotateAmt scratchIndex cfgIndex

/-- The word of an instruction: its call's value (R72 to R75, R83). -/
def encode (i : Instr) : Word := BitVec.ofNat 32 i.call.value

/-- The word whose bits are the low `nbits` bits of `w`, or none when they do not fit the one
32-bit word of an instruction (R70). -/
def tableWord (nbits w : Nat) : Option Word :=
  if w % 2 ^ nbits < 2 ^ 32 then some (BitVec.ofNat 32 (w % 2 ^ nbits)) else none

/-- The instruction the decoder reads from the bits `w`, numbered as spec/opcode_table.json
numbers them. -/
def decodeTableWord (nbits w : Nat) : Option Instr :=
  match tableWord nbits w with
  | none => none
  | some word =>
    match decode word with
    | .instr i => some i
    | .refused _ => none

end Sys2Proof
end

