-- ==== Sys2Proof/Config.lean ====
section
/-! DEFINITION. What an implementation fixes, and the free values.

The spec gives no size of any register file and takes every size, index and policy as a named
parameter, "a configuration record" (00_scope.md R5). That record is `Params`. State carries it
as plain data that no step changes, so a statement about every state is a statement about every
value of every parameter.

The schedule and the environment are under no law (10_state.md R37, 20_memory.md R58). A move
that the state's own list does not name is a free value, `Config.freeAction`. -/

namespace Sys2Proof

/-- `REG2FLOP_TARGET3` (00_scope.md R5, 41_reg2flop.md R126): what TargetSel = 3 means. -/
inductive Target3Policy
  /-- The default: refuse `Reg2FlopTarget3`. -/
  | refuse
  /-- The functional model read literally: flop bank 3, `ContextId_2` not used. -/
  | bank3
deriving DecidableEq, Repr

/-- `SCRATCH_BANK` (00_scope.md R5, 10_state.md R24, conflict C4): the Config bank a
`SCRATCH_SEC` read uses. -/
inductive ScratchBank
  /-- The default: the issuing thread's own state id. -/
  | ownState
  /-- One fixed bank for every thread. -/
  | fixed (bank : Nat)
deriving DecidableEq, Repr

/-- `LATCH_CLEARS_WHEN_MET` (00_scope.md R5, 42_streamwait.md R149, conflict C6). -/
inductive LatchPolicy
  /-- The default: the schedule may take `GateRelease`, or never take it. -/
  | either
  /-- The latch is also dropped as soon as the Wait Gate sees its condition met. -/
  | always
deriving DecidableEq, Repr

/-- One move of the machine (70_reset_and_hazards.md R207): which agent steps, and, for the
environment, the value it writes. -/
inductive Action
  /-- Thread `t` attempts its next instruction. -/
  | threadStep (t : Nat)
  /-- The Configuration Unit performs thread `t`'s oldest pending STREAMWRCFG. -/
  | cfgPerform (t : Nat)
  /-- Thread `t`'s Wait Gate forgets a latch whose condition is met. -/
  | gateRelease (t : Nat)
  /-- The NoC overlay sets register `reg` of stream `stream` to `value`. -/
  | envStep (stream reg : Nat) (value : Word)
deriving DecidableEq, Repr, Inhabited

/-- The configuration record of 00_scope.md R5. `NTHREADS` is the number of thread records in
State and `NSCRATCH` the number of entries of `scratchAddr32`, so that neither is stored twice. -/
structure Params where
  /-- `CFG_NUM_STATES`: Config banks. -/
  cfgNumStates : Nat
  /-- `CFG_STATE_SIZE`: registers in a Config bank. -/
  cfgStateSize : Nat
  /-- `SCRATCH_ADDR32[i]`: the index of `SCRATCH_SEC[i].val` in a Config bank. -/
  scratchAddr32 : List Nat
  /-- `SCRATCH_BANK`. -/
  scratchBank : ScratchBank
  /-- `THCON_SEC0_REG3_Base_address_ADDR32` (10_state.md R25): a name for one Config index. -/
  thconSec0Reg3BaseAddr : Nat
  /-- `NGPR`: TDMA registers in a bank. -/
  ngpr : Nat
  /-- `GPR_PER_THREAD`: whether the TDMA registers are banked per thread. -/
  gprPerThread : Bool
  /-- `NFLOP`: entries in a flop bank. -/
  nflop : Nat
  /-- `NSTREAMS`: NoC overlay streams. -/
  nstreams : Nat
  /-- `NSTREAMREGS`: registers of a stream. -/
  nstreamregs : Nat
  /-- `STREAM_CURR_PHASE_REG_INDEX`. -/
  currPhaseReg : Nat
  /-- `STREAM_NUM_MSGS_RECEIVED_REG_INDEX`. -/
  numMsgsReg : Nat
  /-- `W_STATEID`. -/
  wStateId : Nat
  /-- `W_BANKSEL`. -/
  wBankSel : Nat
  /-- `W_PHASE_HI`. -/
  wPhaseHi : Nat
  /-- `W_NUM_MSGS_HI`. -/
  wNumMsgsHi : Nat
  /-- `REG2FLOP_TARGET3`. -/
  target3 : Target3Policy
  /-- `LATCH_CLEARS_WHEN_MET`. -/
  latchClears : LatchPolicy
deriving DecidableEq, Repr

/-- `NSCRATCH`: the number of `SCRATCH_SEC` entries (00_scope.md R5). -/
def Params.nscratch (p : Params) : Nat := p.scratchAddr32.length

/-- The values at reset: the defaults of 00_scope.md R5, and for the parameters it leaves OPEN the
test values of 95_test_vectors.md section 7. DESIGN CHOICE for the OPEN ones, PRESUMED for those
R5 marks as general knowledge (assumption log 2). -/
def Params.default : Params where
  cfgNumStates := 2
  cfgStateSize := 2048
  scratchAddr32 := [0x30, 0x31, 0x32]
  scratchBank := .ownState
  thconSec0Reg3BaseAddr := 0x55
  ngpr := 64
  gprPerThread := true
  nflop := 1024
  nstreams := 64
  nstreamregs := 1024
  currPhaseReg := 0x00A
  numMsgsReg := 0x00B
  wStateId := 2
  wBankSel := 8
  wPhaseHi := 23
  wNumMsgsHi := 23
  target3 := .refuse
  latchClears := .either

/-- The bounds 00_scope.md R5 puts on the parameters, those from above given by the field widths of
the encodings (those that involve `NTHREADS` stand in the state's invariant). -/
structure Params.Bounded (p : Params) : Prop where
  /-- `CFG_NUM_STATES` is at least 1. -/
  numStates : 1 ≤ p.cfgNumStates
  /-- `NSCRATCH` is at least 3: a direct ScratchIndex reaches entries 0, 1, 2. -/
  scratchThree : 3 ≤ p.nscratch
  /-- Each `SCRATCH_ADDR32[i]` is an index of a Config bank. -/
  scratchInBank : ∀ a ∈ p.scratchAddr32, a < p.cfgStateSize
  /-- The `SCRATCH_ADDR32[i]` are pairwise different. -/
  scratchDistinct : p.scratchAddr32.Nodup
  /-- A fixed `SCRATCH_BANK` is a bank. -/
  scratchBank : ∀ b, p.scratchBank = .fixed b → b < p.cfgNumStates
  /-- The named base-address index is "some index below 256" (10_state.md R25). -/
  thcon : p.thconSec0Reg3BaseAddr < 256
  /-- The phase register is a register of a stream. -/
  phaseReg : p.currPhaseReg < p.nstreamregs
  /-- The messages-received register is a register of a stream. -/
  numMsgsReg : p.numMsgsReg < p.nstreamregs
  /-- The 11-bit CfgReg of STREAMWRCFG reaches 0 to 2047. -/
  cfgStateSize : p.cfgStateSize ≤ 2048
  /-- The 6-bit RegIndex reaches 64 registers. -/
  ngpr : p.ngpr ≤ 64
  /-- The 10-bit FlopIndex reaches 1024 entries of a bank. -/
  nflop : p.nflop ≤ 1024
  /-- The 10-bit StreamRegAddr reaches 1024 registers of a stream. -/
  nstreamregs : p.nstreamregs ≤ 1024

/-- FREE VALUE (assumption log 1): the move made when the state's list of moves is empty, one for
each value of the counter `tick`. It has no body, so no proof can see which move it is. -/
opaque Config.freeAction : Nat → Action

end Sys2Proof
end

