-- ==== Sys2Proof/Machine/State.lean ====
section
/-! DEFINITION. The machine's state (10_state.md R20 to R37), as plain data, and the state after
reset (R36, 70_reset_and_hazards.md R200).

Per-thread state stands in one `Thread` record per thread; the four register files all threads
reach (60_exceptions.md R187) are sparse files of 32-bit registers; beside them stand the run's
parameters, the program lists and the schedule, which R37 calls parameters of the step relation and
which no register holds. The machine has no byte-addressed memory (20_memory.md R50), no flags
(R35), and no exception or mode register (60_exceptions.md R184, R186). -/

namespace Sys2Proof.Machine

/-- A register's place in a file: its bank (Config bank, flop bank, stream, or thread of a TDMA
file) and its index in the bank. Both are element numbers (20_memory.md R51). -/
structure RegAddr where
  bank : Nat
  index : Nat
deriving DecidableEq, Repr

/-- A file of 32-bit registers. A register that is not listed holds 0; `RegFile.Canonical`
(Machine/Ops.lean) is the one form in which a file is written. -/
abbrev RegFile := List (RegAddr × Word)

/-- The fields of `ThreadConfig[t]` the instructions read (R26 to R30), natural numbers. -/
structure ThreadConfig where
  /-- `CFG_STATE_ID_StateID` (R27). -/
  stateId : Nat
  /-- `STREAM_ID_SYNC_SEC[k].BankSel` for `k` in 0 to 3 (R28). -/
  bankSel : Vector Nat 4
  /-- `STREAMWAIT_PHASE_HI_Val` (R29). -/
  phaseHi : Nat
  /-- `STREAMWAIT_NUM_MSGS_HI_Val` (R30). -/
  numMsgsHi : Nat
deriving DecidableEq, Repr

/-- The `opcode` component of a latch (R33): in scope, the constant STREAMWAIT. -/
inductive WaitOpcode
  | streamwait
deriving DecidableEq, Repr

/-- A latched wait condition (R33), the five components of `WaitGate[t].latch(...)`. -/
structure Latch where
  opcode : WaitOpcode
  /-- Bit 0 for C0 (phase), bit 1 for C1 (number of messages). -/
  conditionMask : BitVec 2
  /-- The full target, a natural number not truncated to 32 bits (42_streamwait.md R141). -/
  targetValue : Nat
  streamSelect : Fin 4
  blockMask : BlockMask
deriving DecidableEq, Repr

/-- One STREAMWRCFG issued and not yet performed (R34): `(stream_index, StreamRegAddr, state_id,
CfgReg)`. -/
structure StreamCopy where
  /-- The stream register to read. -/
  source : RegAddr
  /-- The Config register to write. -/
  target : RegAddr
deriving DecidableEq, Repr

/-- What belongs to one thread alone (60_exceptions.md R187). -/
structure Thread where
  /-- `prog[t]`, immutable (R21, 20_memory.md R63). -/
  prog : List Word
  /-- `pc[t]`, an index into `prog` (R21). -/
  pc : Nat
  /-- `ThreadConfig[t]` (R26). -/
  tcfg : ThreadConfig
  /-- `Gate[t]` (R33). -/
  gate : Option Latch
  /-- `lastWasCfgShiftMask[t]` (R34). -/
  lastWasCfgShiftMask : Option RegAddr
  /-- `pendingStreamWrCfg[t]`, oldest first (R34). -/
  pendingStreamWrCfg : List StreamCopy
deriving DecidableEq, Repr

/-- The machine's state. -/
structure State where
  /-- The run's parameters (00_scope.md R5); no step changes them. -/
  params : Params
  /-- The moves chosen by the schedule and not yet made (R37). The model's own field, log 1. -/
  sched : List Action
  /-- How many free moves have been drawn. The model's own field, log 1. -/
  tick : Nat
  /-- `CurrentThread` (R20): the issuer of the instruction being executed. -/
  currentThread : Nat
  /-- The threads, `NTHREADS` of them. -/
  threads : List Thread
  /-- `TDMARegisters` (R22). -/
  tdma : RegFile
  /-- `Config` (R23), the `SCRATCH_SEC` registers (R24) among them. -/
  config : RegFile
  /-- `HardwareFlops` (R31). -/
  flops : RegFile
  /-- `Stream` (R32). -/
  streams : RegFile
deriving DecidableEq, Repr

/-- Why the machine stops with a fault (60_exceptions.md R181). -/
inductive Fault
  /-- `CfgHazard` (70_reset_and_hazards.md R202): raised by the step for the instruction
  immediately after a CFGSHIFTMASK when it is not a Configuration Unit instruction and consumes the
  register just written. Safe: the run stops where the source forbids the program. -/
  | cfgHazard
deriving DecidableEq, Repr

/-- Why the machine declines to step (60_exceptions.md R181; R11: no refusal says the chip traps).
Each is safe: nothing is proved of a run that stops. -/
inductive Refusal
  /-- The instruction has no meaning yet; raised only by an arm of exec, and by none now. Safe. -/
  | notModelled (mnemonic : String)
  /-- Raised by the decoder through the step: the opcode is none of the four (R79). Safe. -/
  | opcodeNotInScope
  /-- Raised by the decoder through the step: a reserved bit is set (R78). Safe. -/
  | reservedBitSet
  /-- Raised by CFGSHIFTMASK and STREAMWRCFG: `StateID >= CFG_NUM_STATES` (R108, R166). Safe. -/
  | cfgStateOutOfRange
  /-- Raised by CFGSHIFTMASK and STREAMWRCFG: target or scratch index out of the bank, or no
  scratch entry of that number (R108, R166). Safe. -/
  | cfgIndexOutOfRange
  /-- Raised by STREAMWRCFG and by the Wait Gate's evaluation: stream or stream register out of
  range (R144, R166). Safe. -/
  | streamIndexOutOfRange
  /-- Raised by REG2FLOP: TargetSel = 3 under the parameter's setting `refuse` (R126). Safe. -/
  | reg2FlopTarget3
  /-- Raised by REG2FLOP: 16-bit mode with ByteOffset 2 or more (R122). Safe. -/
  | reg2FlopByteOffset
  /-- Raised by REG2FLOP: a flop or TDMA register index out of range (R124, R129). Safe. -/
  | reg2FlopIndexOutOfRange
  /-- Raised by exec when `currentThread` is no thread (R20 says it always is one); no step raises
  it, log 4. Safe. -/
  | noSuchThread
deriving DecidableEq, Repr

/-- Every ThreadConfig field at 0. DESIGN CHOICE: R36 leaves them unspecified (log 3). -/
def ThreadConfig.reset : ThreadConfig where
  stateId := 0
  bankSel := #v[0, 0, 0, 0]
  phaseHi := 0
  numMsgsHi := 0

/-- A thread at launch: `pc` 0 (R36), no latch (`GateEmptyAtLaunch`), nothing in flight
(`NothingInFlightAtLaunch`); the program empty, DESIGN CHOICE (log 7). -/
def Thread.reset : Thread where
  prog := []
  pc := 0
  tcfg := .reset
  gate := none
  lastWasCfgShiftMask := none
  pendingStreamWrCfg := []

/-- The machine right after reset. `NTHREADS` is 3, the default of 00_scope.md R5 (PRESUMED, log
2). R36 gives no register a reset value: every register holds 0, DESIGN CHOICE (log 3); the
schedule is empty, DESIGN CHOICE (log 1). -/
def State.reset : State where
  params := .default
  sched := []
  tick := 0
  currentThread := 0
  threads := [.reset, .reset, .reset]
  tdma := []
  config := []
  flops := []
  streams := []

end Sys2Proof.Machine
end

