-- ==== Sys2Proof/Machine/Ops.lean ====
section
/-! DEFINITION. The named operations over register files and threads.

Every read and write of a register goes through these. No instruction reaches byte-addressed
memory (20_memory.md R50), and the spec defines no exception entry or return (60_exceptions.md
R184, R185), so no operation of either kind stands here. -/

namespace Sys2Proof.Machine

/-- The order in which a register file lists its registers: by bank, then by index. -/
def RegAddr.lt (a b : RegAddr) : Bool :=
  decide (a.bank < b.bank) || (decide (a.bank = b.bank) && decide (a.index < b.index))

/-- The value of a register; one that is not listed holds 0. Reading changes nothing
(20_memory.md R56). -/
def RegFile.read : RegFile → RegAddr → Word
  | [], _ => 0
  | (b, u) :: rest, a => if a = b then u else RegFile.read rest a

/-- The file without an entry for `a`, so that `a` holds 0. -/
def RegFile.clear (f : RegFile) (a : RegAddr) : RegFile := f.filter (fun e => decide (e.1 ≠ a))

/-- The file with an entry for `a` before the first entry of a later place. -/
def RegFile.place : RegFile → RegAddr → Word → RegFile
  | [], a, v => [(a, v)]
  | (b, u) :: rest, a, v =>
    if a.lt b then (a, v) :: (b, u) :: rest else (b, u) :: RegFile.place rest a v

/-- Write all 32 bits of one register (20_memory.md R54, R55), keeping the canonical form: the
list stays sorted and a register that holds 0 is not listed. -/
def RegFile.write (f : RegFile) (a : RegAddr) (v : Word) : RegFile :=
  if v = 0 then RegFile.clear f a else RegFile.place (RegFile.clear f a) a v

/-- The canonical form of a register file: places strictly rising, no entry that holds 0. -/
abbrev RegFile.Canonical (f : RegFile) : Prop :=
  f.Pairwise (fun x y => x.1.lt y.1 = true) ∧ ∀ e ∈ f, e.2 ≠ 0

/-- Every listed register lies in a file of `banks` banks of `size` registers. -/
abbrev RegFile.Within (f : RegFile) (banks size : Nat) : Prop :=
  ∀ e ∈ f, e.1.bank < banks ∧ e.1.index < size

/-- `NTHREADS` (00_scope.md R5). -/
def State.nthreads (s : State) : Nat := s.threads.length

/-- Thread `t`'s record, none when `t >= NTHREADS`. -/
def State.thread? (s : State) (t : Nat) : Option Thread := s.threads[t]?

/-- Replace thread `t`'s record. -/
def State.setThread (s : State) (t : Nat) (th : Thread) : State :=
  { s with threads := s.threads.set t th }

/-- The bank of `TDMARegisters` thread `t` reads: its own under `GPR_PER_THREAD`, else the one
shared bank, numbered 0 (10_state.md R22; log 9). -/
def State.tdmaBank (s : State) (t : Nat) : Nat := if s.params.gprPerThread then t else 0

/-- `x[i]` of the issuing thread (00_scope.md R9). -/
def State.readTdma (s : State) (i : Nat) : Word :=
  s.tdma.read ⟨s.tdmaBank s.currentThread, i⟩

/-- `Cfg[s][i]` (00_scope.md R9). -/
def State.readConfig (s : State) (a : RegAddr) : Word := s.config.read a

/-- `Cfg[s][i] <- v` (00_scope.md R9). -/
def State.writeConfig (s : State) (a : RegAddr) (v : Word) : State :=
  { s with config := s.config.write a v }

/-- `StreamRead(s, r)` (00_scope.md R9, 10_state.md R32). -/
def State.readStream (s : State) (a : RegAddr) : Word := s.streams.read a

/-- The environment's write of one stream register (10_state.md R32). -/
def State.writeStream (s : State) (a : RegAddr) (v : Word) : State :=
  { s with streams := s.streams.write a v }

/-- `Flop[b][i]`, read only to keep the bytes a narrow write leaves alone (20_memory.md R55). -/
def State.readFlop (s : State) (a : RegAddr) : Word := s.flops.read a

/-- `Flop[b][i] <- v` (00_scope.md R9). -/
def State.writeFlop (s : State) (a : RegAddr) (v : Word) : State :=
  { s with flops := s.flops.write a v }

/-- Byte `k` of a word: bits `[8k+7:8k]` (20_memory.md R52; PRESUMED, log 8). -/
def byteOf (w : Word) (k : Nat) : Byte := (w >>> (8 * k)).setWidth 8

/-- The word with byte `k` replaced, the other three as they were (20_memory.md R52, R55). -/
def setByte (w : Word) (k : Nat) (b : Byte) : Word :=
  (w &&& ~~~((0xFF : Word) <<< (8 * k))) ||| ((b.setWidth 32) <<< (8 * k))

/-- `Flop[b][f].byte[k] <- v`. -/
def State.writeFlopByte (s : State) (a : RegAddr) (k : Nat) (v : Byte) : State :=
  s.writeFlop a (setByte (s.readFlop a) k v)

/-- The end of every instruction's step: the issuing thread's record becomes `th` with
`pc[t] <- pc[t] + 1` (10_state.md R21) and `lastWasCfgShiftMask[t] <- mark`
(70_reset_and_hazards.md R207 line 5). -/
def State.retire (s : State) (th : Thread) (mark : Option RegAddr) : State :=
  s.setThread s.currentThread { th with pc := th.pc + 1, lastWasCfgShiftMask := mark }

end Sys2Proof.Machine
end

