-- ==== Sys2Proof/Machine/Operands.lean ====
section
/-! DEFINITION. Operand forms and the values the instructions compute from their fields
(30_encoding.md R76; 40_cfgshiftmask.md R101 to R103; 41_reg2flop.md R122, R124, R126;
42_streamwait.md R141, R142). -/

namespace Sys2Proof.Machine

/-- `rotr32(val, amount)` of 00_scope.md R8, the source's formula over unbounded integers:
`amount &= 31; ((val >> amount) | (val << (32 - amount))) & 0xFFFFFFFF`. -/
def rotr32 (val : Word) (amount : Nat) : Word :=
  BitVec.ofNat 32 ((val.toNat >>> (amount % 32)) ||| (val.toNat <<< (32 - amount % 32)))

/-- `mask_val = (2 << MaskWidth) - 1`, computed without truncation (40_cfgshiftmask.md R102). -/
def maskVal (maskWidth : Nat) : Word := BitVec.ofNat 32 ((2 <<< maskWidth) - 1)

/-- Line 3 of R100: the scratch value masked, then rotated. -/
def cfgOperand (maskWidth rotateAmt : Nat) (scratchRaw : Word) : Word :=
  rotr32 (scratchRaw &&& maskVal maskWidth) rotateAmt

/-- Line 4 of R100: the mask region in the target. -/
def cfgRegion (maskWidth rotateAmt : Nat) : Word := rotr32 (maskVal maskWidth) rotateAmt

/-- Line 7 of R100: the old value, its region cleared under MaskMode 0. -/
def cfgBase (maskMode : MaskMode) (region old : Word) : Word :=
  match maskMode with
  | .clearRegion => old &&& ~~~region
  | .keep => old

/-- The ALU of 40_cfgshiftmask.md R103: eight modes, all defined; carries and borrows out of bit
31 are lost. -/
def alu (aluMode : AluMode) (base operand : Word) : Word :=
  match aluMode with
  | .or => base ||| operand
  | .and => base &&& operand
  | .xor => base ^^^ operand
  | .add => base + operand
  | .orNot => base ||| ~~~operand
  | .andNot => base &&& ~~~operand
  | .xorNot => base ^^^ ~~~operand
  | .sub => base - operand

/-- Lines 2 to 8 of 40_cfgshiftmask.md R100: the new value of the target register. -/
def cfgshiftmaskResult (maskMode : MaskMode) (aluMode : AluMode) (maskWidth rotateAmt : Nat)
    (scratchRaw old : Word) : Word :=
  alu aluMode (cfgBase maskMode (cfgRegion maskWidth rotateAmt) old)
    (cfgOperand maskWidth rotateAmt scratchRaw)

/-- The entry of `SCRATCH_SEC` ScratchIndex names: itself below 3, else the thread's number
(40_cfgshiftmask.md R101). -/
def scratchEntry (currentThread scratchIndex : Nat) : Nat :=
  if scratchIndex < 3 then scratchIndex else currentThread

/-- The Config index of the selected scratch register; none when there is no such entry or it lies
outside the bank (40_cfgshiftmask.md R101, R108). -/
def scratchAddr? (p : Params) (currentThread scratchIndex : Nat) : Option Nat :=
  match p.scratchAddr32[scratchEntry currentThread scratchIndex]? with
  | some a => if a < p.cfgStateSize then some a else none
  | none => none

/-- The bank a scratch read uses, `SCRATCH_BANK` (10_state.md R24). -/
def scratchBankOf (p : Params) (stateId : Nat) : Nat :=
  match p.scratchBank with
  | .ownState => stateId
  | .fixed b => b

/-- The flop bank TargetSel names; none for TargetSel = 3 under `REG2FLOP_TARGET3 = refuse`
(41_reg2flop.md R126). -/
def flopBank? (p : Params) : TargetSel → Option Nat
  | .tdma => some 0
  | .localRegs => some 1
  | .addrCntrs => some 2
  | .overrideCtx =>
    match p.target3 with
    | .refuse => none
    | .bank3 => some 3

/-- `r & ~3`: the register group of the 16-byte mode (41_reg2flop.md R124, 20_memory.md R53). -/
def tdmaGroup (regIndex : Nat) : Nat := regIndex - regIndex % 4

/-- The high part of the STREAMWAIT target (42_streamwait.md R140 line 1). -/
def targetHi (tcfg : ThreadConfig) : CondIndex → Nat
  | .phase => tcfg.phaseHi
  | .numMsgs => tcfg.numMsgsHi

/-- `target = (hi << 10) | target_value`, a natural number; bit 10 of both parts falls on the same
bit (42_streamwait.md R141, conflict C1). -/
def streamTarget (hi targetValue : Nat) : Nat := (hi <<< 10) ||| targetValue

/-- `1 << target_sel` (42_streamwait.md R143). -/
def conditionMaskOf (targetSel : CondIndex) : BitVec 2 := 1#2 <<< targetSel.code

/-- The block mask latched: B6 for a zero mask (42_streamwait.md R142). -/
def latchedBlockMask (stallRes : BlockMask) : BlockMask :=
  if stallRes = 0 then 0x040 else stallRes

end Sys2Proof.Machine
end

