-- ==== Sys2Proof/Machine/Flags.lean ====
section
/-! DEFINITION. What conditions later execution.

The machine has no flags, condition codes or predicate registers; the Wait Gate latch is the only
state that conditions later execution (10_state.md R35). This file holds the block classes
(42_streamwait.md R146), the condition of a latch (R144), the verdict of the hold rule (R147) and
the test of the CFGSHIFTMASK hazard (70_reset_and_hazards.md R202). -/

namespace Sys2Proof.Machine

/-- B0, STALL_TDMA (42_streamwait.md R146). -/
def stallTdma : BlockMask := 0x001
/-- B1, STALL_SYNC. -/
def stallSync : BlockMask := 0x002
/-- B5, STALL_THCON. -/
def stallThcon : BlockMask := 0x020
/-- B6, STALL_MATH: no instruction in scope has this class. -/
def stallMath : BlockMask := 0x040
/-- B7, STALL_CFG. -/
def stallCfg : BlockMask := 0x080

/-- The block classes of an instruction (42_streamwait.md R146). -/
def stallBits : Instr → BlockMask
  | .reg2flop _ _ _ _ _ _ => stallTdma ||| stallThcon
  | .streamwait _ _ _ _ => stallSync
  | .streamwrcfg _ _ _ => stallCfg
  | .cfgshiftmask _ _ _ _ _ _ => stallCfg

/-- Whether an instruction executes on the Configuration Unit (R106, R127, R151, R163). -/
def isCfgUnit : Instr → Bool
  | .reg2flop _ _ _ _ _ _ => false
  | .streamwait _ _ _ _ => false
  | .streamwrcfg _ _ _ => true
  | .cfgshiftmask _ _ _ _ _ _ => true

/-- `consumesCfg(I, s, i)` of 70_reset_and_hazards.md R202, asked of the instructions that are not
Configuration Unit instructions: REG2FLOP and STREAMWAIT read no Config register, so it is false.
For the two exempt instructions R202 gives no value and none is used; the answer here is what their
functional models do: STREAMWRCFG reads no Config register, CFGSHIFTMASK may read the one asked
about. -/
def consumesCfg : Instr → RegAddr → Bool
  | .reg2flop _ _ _ _ _ _, _ => false
  | .streamwait _ _ _ _, _ => false
  | .streamwrcfg _ _ _, _ => false
  | .cfgshiftmask _ _ _ _ _ _, _ => true

/-- The hazard of 70_reset_and_hazards.md R202: `I` follows a CFGSHIFTMASK of its thread, is no
Configuration Unit instruction, and consumes the register just written. -/
def cfgHazard (th : Thread) (i : Instr) : Bool :=
  match th.lastWasCfgShiftMask with
  | none => false
  | some r => !isCfgUnit i && consumesCfg i r

/-- The stream a latch of the thread waits on, looked up at each evaluation (42_streamwait.md R143,
R144). -/
def latchStream (th : Thread) (l : Latch) : Nat := th.tcfg.bankSel[l.streamSelect]

/-- Whether a latch's condition can be evaluated: the stream exists, and so does each register the
condition mask tests (42_streamwait.md R144, 60_exceptions.md R181). -/
def latchInRange (p : Params) (th : Thread) (l : Latch) : Bool :=
  decide (latchStream th l < p.nstreams)
    && (!l.conditionMask.getLsbD 0 || decide (p.currPhaseReg < p.nstreamregs))
    && (!l.conditionMask.getLsbD 1 || decide (p.numMsgsReg < p.nstreamregs))

/-- `keepBlocking(t, L)` of 42_streamwait.md R144: the register's 32 bits, read as an unsigned
number, are below the target. -/
def keepBlocking (p : Params) (streams : RegFile) (th : Thread) (l : Latch) : Bool :=
  (l.conditionMask.getLsbD 0
      && decide ((streams.read ⟨latchStream th l, p.currPhaseReg⟩).toNat < l.targetValue))
    || (l.conditionMask.getLsbD 1
      && decide ((streams.read ⟨latchStream th l, p.numMsgsReg⟩).toNat < l.targetValue))

/-- What the Wait Gate says of one attempt (42_streamwait.md R147). -/
inductive GateVerdict
  /-- No latch, or none of the instruction's classes is in its mask: nothing is evaluated. -/
  | notBlocked
  /-- A class is in the mask and the condition is met. -/
  | met
  /-- A class is in the mask and the condition is not met: the outcome is `hold`. -/
  | hold
  /-- A class is in the mask and the latch's stream does not exist (R144). -/
  | streamOutOfRange
deriving DecidableEq, Repr

/-- The hold rule (42_streamwait.md R147), evaluated afresh at every attempt. -/
def gateVerdict (p : Params) (streams : RegFile) (th : Thread) (i : Instr) : GateVerdict :=
  match th.gate with
  | none => .notBlocked
  | some l =>
    if l.blockMask &&& stallBits i = 0 then .notBlocked
    else if latchInRange p th l = false then .streamOutOfRange
    else if keepBlocking p streams th l then .hold
    else .met

end Sys2Proof.Machine
end

