-- ==== Sys2Proof/Machine/ConfigUnit.lean ====
section
/-! DEFINITION. The Configuration Unit's instructions: CFGSHIFTMASK (40_cfgshiftmask.md) and
STREAMWRCFG (43_streamwrcfg.md), and the perform step of the latter (70_reset_and_hazards.md
R203). -/

namespace Sys2Proof.Machine

/-- CFGSHIFTMASK (40_cfgshiftmask.md R100): the scratch register is read before the target is
written (R105), the read-modify-write is one step (20_memory.md R55), and the register written is
recorded (R107). The refusals and their order are R108's. -/
def execCfgshiftmask (maskMode : MaskMode) (aluMode : AluMode)
    (maskWidth rotateAmt scratchIndex cfgIndex : Nat) (s : State) :
    Host.Outcome State Fault Refusal :=
  match s.thread? s.currentThread with
  | none => .refused .noSuchThread
  | some th =>
    if s.params.cfgNumStates ≤ th.tcfg.stateId
        ∨ s.params.cfgNumStates ≤ scratchBankOf s.params th.tcfg.stateId then
      .refused .cfgStateOutOfRange
    else if s.params.cfgStateSize ≤ cfgIndex then .refused .cfgIndexOutOfRange
    else
      match scratchAddr? s.params s.currentThread scratchIndex with
      | none => .refused .cfgIndexOutOfRange
      | some a =>
        let target : RegAddr := ⟨th.tcfg.stateId, cfgIndex⟩
        let result := cfgshiftmaskResult maskMode aluMode maskWidth rotateAmt
          (s.readConfig ⟨scratchBankOf s.params th.tcfg.stateId, a⟩) (s.readConfig target)
        .next ((s.writeConfig target result).retire th (some target))

/-- STREAMWRCFG's issue step (70_reset_and_hazards.md R203(a), lines 1, 2 and 5 of
43_streamwrcfg.md R160): `BankSel` and the state id are sampled here and the copy is queued behind
the thread's earlier ones. The refusals and their order are R166's. -/
def execStreamwrcfg (streamIdSel : Fin 4) (streamRegAddr cfgReg : Nat) (s : State) :
    Host.Outcome State Fault Refusal :=
  match s.thread? s.currentThread with
  | none => .refused .noSuchThread
  | some th =>
    if s.params.nstreams ≤ th.tcfg.bankSel[streamIdSel]
        ∨ s.params.nstreamregs ≤ streamRegAddr then .refused .streamIndexOutOfRange
    else if s.params.cfgNumStates ≤ th.tcfg.stateId then .refused .cfgStateOutOfRange
    else if s.params.cfgStateSize ≤ cfgReg then .refused .cfgIndexOutOfRange
    else
      let entry : StreamCopy := ⟨⟨th.tcfg.bankSel[streamIdSel], streamRegAddr⟩, ⟨th.tcfg.stateId, cfgReg⟩⟩
      .next (s.retire { th with pendingStreamWrCfg := th.pendingStreamWrCfg ++ [entry] } none)

/-- `CfgPerform(t)` (70_reset_and_hazards.md R203(b), lines 3 and 4 of 43_streamwrcfg.md R160): the
oldest pending copy is removed and done, its stream register read at this moment (R162). Not
enabled when the thread has none pending: the state stays as it is (log 6). -/
def cfgPerform (t : Nat) (s : State) : State :=
  match s.thread? t with
  | none => s
  | some th =>
    match th.pendingStreamWrCfg with
    | [] => s
    | c :: rest =>
      (s.writeConfig c.target (s.readStream c.source)).setThread t { th with pendingStreamWrCfg := rest }

end Sys2Proof.Machine
end

