-- ==== Sys2Proof/Machine/ScalarUnit.lean ====
section
/-! DEFINITION. The Scalar Unit's instruction, REG2FLOP (41_reg2flop.md). -/

namespace Sys2Proof.Machine

/-- SizeSel 1 (41_reg2flop.md R121): the whole flop is replaced. -/
def moveBits32 (dst : RegAddr) (src : Word) (s : State) : State := s.writeFlop dst src

/-- SizeSel 2 (R122): the low 16 bits go to the two bytes at offset `ByteOffset * 2`, low byte
first (20_memory.md R52). -/
def moveBits16 (dst : RegAddr) (byteOffset : Nat) (src : Word) (s : State) : State :=
  (s.writeFlopByte dst (byteOffset * 2) (byteOf src 0)).writeFlopByte dst (byteOffset * 2 + 1) (byteOf src 1)

/-- SizeSel 3 (R123): the low 8 bits go to byte `ByteOffset`. -/
def moveBits8 (dst : RegAddr) (byteOffset : Nat) (src : Word) (s : State) : State :=
  s.writeFlopByte dst byteOffset (byteOf src 0)

/-- SizeSel 0 (R124): four flops from `flopIndex` on, from the four registers of the aligned
group. -/
def moveBytes16 (bank flopIndex regIndex : Nat) (s : State) : State :=
  (((s.writeFlop ⟨bank, flopIndex⟩ (s.readTdma (tdmaGroup regIndex))).writeFlop
    ⟨bank, flopIndex + 1⟩ (s.readTdma (tdmaGroup regIndex + 1))).writeFlop
    ⟨bank, flopIndex + 2⟩ (s.readTdma (tdmaGroup regIndex + 2))).writeFlop
    ⟨bank, flopIndex + 3⟩ (s.readTdma (tdmaGroup regIndex + 3))

/-- REG2FLOP (41_reg2flop.md R120). `ContextId_2` is never used, `ByteOffset` only by the two
narrow sizes (R125). Refusals in R129's order: Target3, ByteOffset, IndexOutOfRange. The 16-byte
move is refused past flop 1023, the end of the 10-bit range, whatever NFLOP is (R124, R129). -/
def execReg2flop (sizeSel : SizeSel) (targetSel : TargetSel)
    (byteOffset _contextId2 flopIndex regIndex : Nat) (s : State) :
    Host.Outcome State Fault Refusal :=
  match s.thread? s.currentThread with
  | none => .refused .noSuchThread
  | some th =>
    match flopBank? s.params targetSel with
    | none => .refused .reg2FlopTarget3
    | some bank =>
      match sizeSel with
      | .bits32 =>
        if s.params.nflop ≤ flopIndex ∨ s.params.ngpr ≤ regIndex then
          .refused .reg2FlopIndexOutOfRange
        else .next ((moveBits32 ⟨bank, flopIndex⟩ (s.readTdma regIndex) s).retire th none)
      | .bits16 =>
        if 2 ≤ byteOffset then .refused .reg2FlopByteOffset
        else if s.params.nflop ≤ flopIndex ∨ s.params.ngpr ≤ regIndex then
          .refused .reg2FlopIndexOutOfRange
        else .next ((moveBits16 ⟨bank, flopIndex⟩ byteOffset (s.readTdma regIndex) s).retire th none)
      | .bits8 =>
        if s.params.nflop ≤ flopIndex ∨ s.params.ngpr ≤ regIndex then
          .refused .reg2FlopIndexOutOfRange
        else .next ((moveBits8 ⟨bank, flopIndex⟩ byteOffset (s.readTdma regIndex) s).retire th none)
      | .bytes16 =>
        if s.params.nflop ≤ flopIndex + 3 ∨ 1023 < flopIndex + 3
            ∨ s.params.ngpr ≤ tdmaGroup regIndex + 3 then
          .refused .reg2FlopIndexOutOfRange
        else .next ((moveBytes16 bank flopIndex regIndex s).retire th none)

end Sys2Proof.Machine
end

