-- ==== Sys2Proof/Machine/SyncUnit.lean ====
section
/-! DEFINITION. The Sync Unit's instruction, STREAMWAIT, and the Wait Gate's own move
(42_streamwait.md). -/

namespace Sys2Proof.Machine

/-- The latch a STREAMWAIT writes (42_streamwait.md R140 lines 1 to 4, R143). -/
def streamwaitLatch (tcfg : ThreadConfig) (stallRes : BlockMask) (targetValue : Nat)
    (targetSel : CondIndex) (waitStreamSel : Fin 4) : Latch where
  opcode := .streamwait
  conditionMask := conditionMaskOf targetSel
  targetValue := streamTarget (targetHi tcfg targetSel) targetValue
  streamSelect := waitStreamSel
  blockMask := latchedBlockMask stallRes

/-- STREAMWAIT (42_streamwait.md R140): it writes the thread's latch, over any latch already there
(R148), and waits for nothing itself (R145, R150). -/
def execStreamwait (stallRes : BlockMask) (targetValue : Nat) (targetSel : CondIndex)
    (waitStreamSel : Fin 4) (s : State) : Host.Outcome State Fault Refusal :=
  match s.thread? s.currentThread with
  | none => .refused .noSuchThread
  | some th =>
    .next (s.retire
      { th with gate := some (streamwaitLatch th.tcfg stallRes targetValue targetSel waitStreamSel) } none)

/-- Whether `GateRelease(t)` is enabled (42_streamwait.md R149): the thread has a latch, its
condition can be evaluated, and it is met. -/
def gateReleasable (s : State) (th : Thread) : Bool :=
  match th.gate with
  | none => false
  | some l => latchInRange s.params th l && !keepBlocking s.params s.streams th l

/-- `GateRelease(t)` (42_streamwait.md R149): the latch is dropped. Not enabled otherwise: the state
stays as it is (log 6). -/
def gateRelease (t : Nat) (s : State) : State :=
  match s.thread? t with
  | none => s
  | some th => if gateReleasable s th then s.setThread t { th with gate := none } else s

end Sys2Proof.Machine
end

