-- ==== Sys2Proof/Machine/Dispatch.lean ====
section
/-! DEFINITION. From an instruction to its meaning, one arm per constructor. -/

namespace Sys2Proof.Machine

def exec (i : Instr) (s : State) : Host.Outcome State Fault Refusal :=
  match i with
  | .reg2flop sz tg bo cx fi ri => Sys2Proof.Machine.execReg2flop sz tg bo cx fi ri s
  | .streamwait sr tv ts ws => Sys2Proof.Machine.execStreamwait sr tv ts ws s
  | .streamwrcfg sel ra cr => Sys2Proof.Machine.execStreamwrcfg sel ra cr s
  | .cfgshiftmask mm am mw rot si ci => Sys2Proof.Machine.execCfgshiftmask mm am mw rot si ci s

end Sys2Proof.Machine
end

