-- ==== Sys2Proof/Machine/Issue.lean ====
section
/-! DEFINITION. The machine's moves: the step relation of 70_reset_and_hazards.md R207, one
function per kind of move. -/

namespace Sys2Proof.Machine

/-- The refusal a decoder error turns into (60_exceptions.md R181). -/
def refusalOf : DecodeError → Refusal
  | .opcodeNotInScope => .opcodeNotInScope
  | .reservedBitSet => .reservedBitSet

/-- Lines 3 and 4 of R207: the hazard test, then the instruction's own rule. `th` is the thread as
the attempt found it. -/
def runUnlessHazard (th : Thread) (i : Instr) (s : State) : Host.Outcome State Fault Refusal :=
  if cfgHazard th i then .fault .cfgHazard else exec i s

/-- What the Wait Gate does with a latch it has just seen met: dropped under
`LATCH_CLEARS_WHEN_MET = always`, kept under `either` (42_streamwait.md R149; log 16). -/
def clearMetLatch (t : Nat) (th : Thread) (s : State) : State :=
  match s.params.latchClears with
  | .either => s
  | .always => s.setThread t { th with gate := none }

/-- Lines 2 to 5 of R207 for the decoded instruction `i` of thread `t`. A held instruction changes
nothing (42_streamwait.md R147). -/
def issue (t : Nat) (th : Thread) (i : Instr) (s : State) : Host.Outcome State Fault Refusal :=
  match gateVerdict s.params s.streams th i with
  | .streamOutOfRange => .refused .streamIndexOutOfRange
  | .hold => .next s
  | .notBlocked => runUnlessHazard th i { s with currentThread := t }
  | .met => runUnlessHazard th i (clearMetLatch t th { s with currentThread := t })

/-- `ThreadStep(t)` of R207. Not enabled when there is no thread `t` or its program is at its end:
the state stays as it is (log 6). -/
def threadStep (t : Nat) (s : State) : Host.Outcome State Fault Refusal :=
  match s.thread? t with
  | none => .next s
  | some th =>
    match th.prog[th.pc]? with
    | none => .next s
    | some w =>
      match decode w with
      | .refused e => .refused (refusalOf e)
      | .instr i => issue t th i s

/-- `EnvStep` of R207: one stream register takes a new value (10_state.md R32). A register that
does not exist cannot change (log 6). -/
def envStep (stream reg : Nat) (v : Word) (s : State) : State :=
  if stream < s.params.nstreams ∧ reg < s.params.nstreamregs then s.writeStream ⟨stream, reg⟩ v else s

/-- One move of the machine. -/
def perform (a : Action) (s : State) : Host.Outcome State Fault Refusal :=
  match a with
  | .threadStep t => threadStep t s
  | .cfgPerform t => .next (cfgPerform t s)
  | .gateRelease t => .next (gateRelease t s)
  | .envStep stream reg v => .next (envStep stream reg v s)

/-- The move the schedule makes next: the head of the state's list, or a free value when the list
is empty (10_state.md R37; log 1). -/
def nextAction (s : State) : Action :=
  match s.sched with
  | a :: _ => a
  | [] => Config.freeAction s.tick

/-- The state with that choice used up. -/
def dropAction (s : State) : State :=
  match s.sched with
  | _ :: rest => { s with sched := rest }
  | [] => { s with tick := s.tick + 1 }

/-- A program with the word `w` at position `pc`; positions before it that the program does not
have are filled with 0. -/
def placeWord (prog : List Word) (pc : Nat) (w : Word) : List Word :=
  (prog ++ List.replicate (pc + 1 - prog.length) 0).set pc w

/-- The current thread's next instruction is `w`, and the schedule's next move is its step. -/
def placeNext (w : Word) (s : State) : State :=
  match s.thread? s.currentThread with
  | none => s
  | some th =>
    { s.setThread s.currentThread { th with prog := placeWord th.prog th.pc w } with
      sched := .threadStep s.currentThread :: s.sched }

end Sys2Proof.Machine
end

