-- ==== Sys2Proof/Machine/Step.lean ====
section
/-! DEFINITION. One step of the machine: the move the schedule chose (70_reset_and_hazards.md
R207, 20_memory.md R58), made on the state with that choice used up. -/

namespace Sys2Proof.Machine

/-- One step. -/
def step (s : State) : Host.Outcome State Fault Refusal := perform (nextAction s) (dropAction s)

/-- `s` with the instruction whose bits are the low `nbits` bits of `w` as the current thread's next
one, and that thread's step as the schedule's next move (log 7). -/
def State.withFetchWord (s : State) (nbits w : Nat) : State :=
  match tableWord nbits w with
  | none => s
  | some word => placeNext word s

end Sys2Proof.Machine
end

