-- ==== Sys2Proof/Safety.lean ====
section
/-! DEFINITION. What counts as a well-behaved state and a finished run: the invariant of the state,
when a move is enabled (70_reset_and_hazards.md R207), final states (R206), and weak fairness
(R208). -/

namespace Sys2Proof.Machine

/-- A ThreadConfig's fields are natural numbers below 2 to their width (10_state.md R26). -/
structure ThreadConfig.Bounded (p : Params) (c : ThreadConfig) : Prop where
  stateId : c.stateId < 2 ^ p.wStateId
  bankSel : ∀ k : Fin 4, c.bankSel[k] < 2 ^ p.wBankSel
  phaseHi : c.phaseHi < 2 ^ p.wPhaseHi
  numMsgsHi : c.numMsgsHi < 2 ^ p.wNumMsgsHi

/-- The shape of a latch (10_state.md R33): exactly one condition bit, a block mask that is not
zero. -/
structure Latch.Shaped (l : Latch) : Prop where
  oneCondition : l.conditionMask = 1#2 ∨ l.conditionMask = 2#2
  blocks : l.blockMask ≠ 0

/-- A Config register that exists (10_state.md R23). -/
abbrev InConfig (p : Params) (a : RegAddr) : Prop :=
  a.bank < p.cfgNumStates ∧ a.index < p.cfgStateSize

/-- A stream register that exists (10_state.md R32). -/
abbrev InStreams (p : Params) (a : RegAddr) : Prop :=
  a.bank < p.nstreams ∧ a.index < p.nstreamregs

/-- What holds of each thread's record. -/
structure Thread.Sound (p : Params) (th : Thread) : Prop where
  /-- The position is in the program or at its end (10_state.md R21). -/
  pc : th.pc ≤ th.prog.length
  tcfg : th.tcfg.Bounded p
  gate : ∀ l, th.gate = some l → l.Shaped
  /-- The register a CFGSHIFTMASK wrote exists. -/
  mark : ∀ a, th.lastWasCfgShiftMask = some a → InConfig p a
  /-- Each pending copy's registers exist: the ranges are tested at issue (R203(a)). -/
  pending : ∀ c ∈ th.pendingStreamWrCfg, InStreams p c.source ∧ InConfig p c.target

/-- The invariant of the state: the parameters keep the bounds of 00_scope.md R5, the threads are
as `Thread.Sound` says, and every register file is in its canonical form and lists only registers
that exist. -/
structure State.Inv (s : State) : Prop where
  params : s.params.Bounded
  /-- `CurrentThread` is below `NTHREADS` (10_state.md R20), so `NTHREADS` is at least 1. -/
  current : s.currentThread < s.nthreads
  /-- `NSCRATCH` is at least `NTHREADS` (00_scope.md R5). -/
  scratch : s.nthreads ≤ s.params.nscratch
  threads : ∀ th ∈ s.threads, th.Sound s.params
  tdmaForm : s.tdma.Canonical
  tdmaRange : s.tdma.Within s.nthreads s.params.ngpr
  configForm : s.config.Canonical
  configRange : s.config.Within s.params.cfgNumStates s.params.cfgStateSize
  flopsForm : s.flops.Canonical
  flopsRange : s.flops.Within 4 s.params.nflop
  streamsForm : s.streams.Canonical
  streamsRange : s.streams.Within s.params.nstreams s.params.nstreamregs

/-- Whether thread `t`'s program is at its end, or there is no such thread (10_state.md R21). -/
def State.finished (s : State) (t : Nat) : Bool :=
  match s.thread? t with
  | none => true
  | some th => decide (th.prog.length ≤ th.pc)

/-- Whether a move is enabled (70_reset_and_hazards.md R207). -/
def enabled (a : Action) (s : State) : Bool :=
  match a with
  | .threadStep t => !s.finished t
  | .cfgPerform t =>
    match s.thread? t with
    | none => false
    | some th => !th.pendingStreamWrCfg.isEmpty
  | .gateRelease t =>
    match s.thread? t with
    | none => false
    | some th => gateReleasable s th
  | .envStep stream reg _ => decide (stream < s.params.nstreams) && decide (reg < s.params.nstreamregs)

/-- A final state (70_reset_and_hazards.md R206): every thread has `pc[t] = length(prog[t])` and
every pending list is empty. A latch left in a gate does not matter. -/
def State.Final (s : State) : Prop :=
  ∀ th ∈ s.threads, th.pc = th.prog.length ∧ th.pendingStreamWrCfg = []

/-- An endless run under a schedule: at each position the scheduled move answers the next state
(70_reset_and_hazards.md R207; a move that is not enabled leaves the state as it is). The machine's
own `step` makes these moves when its list names them. -/
def IsRun (acts : Nat → Action) (σ : Nat → State) : Prop :=
  ∀ n, perform (acts n) (σ n) = .next (σ (n + 1))

/-- Weak fairness for one move: from every position on, it is made or is found not enabled. -/
def WeaklyFairFor (a : Action) (acts : Nat → Action) (σ : Nat → State) : Prop :=
  ∀ n, ∃ m, n ≤ m ∧ (acts m = a ∨ enabled a (σ m) = false)

/-- The fairness 70_reset_and_hazards.md R208 assumes: weak fairness for every thread's step and
every thread's perform step, nothing of the environment and nothing of the gate's release. -/
structure FairRun (acts : Nat → Action) (σ : Nat → State) : Prop where
  run : IsRun acts σ
  threads : ∀ t, WeaklyFairFor (.threadStep t) acts σ
  performs : ∀ t, WeaklyFairFor (.cfgPerform t) acts σ

/-- The premise `GateEmptyAtLaunch` (10_state.md R36). -/
def GateEmptyAtLaunch (s : State) : Prop := ∀ th ∈ s.threads, th.gate = none

/-- The premise `NothingInFlightAtLaunch` (10_state.md R36). -/
def NothingInFlightAtLaunch (s : State) : Prop :=
  ∀ th ∈ s.threads, th.lastWasCfgShiftMask = none ∧ th.pendingStreamWrCfg = []

/-- A launch state (70_reset_and_hazards.md R200, 10_state.md R36): `pc[t] = 0` and
`CFG_STATE_ID_StateID` below `CFG_NUM_STATES` for every thread, and the two launch premises; every
other register holds any value. -/
def State.Launch (s : State) : Prop :=
  (∀ th ∈ s.threads, th.pc = 0 ∧ th.tcfg.stateId < s.params.cfgNumStates) ∧
    GateEmptyAtLaunch s ∧ NothingInFlightAtLaunch s

/-- The premise `ScratchSameInAllBanks` (10_state.md R24). -/
def ScratchSameInAllBanks (s : State) : Prop :=
  ∀ a ∈ s.params.scratchAddr32, ∀ b₁ b₂, b₁ < s.params.cfgNumStates → b₂ < s.params.cfgNumStates →
    s.readConfig ⟨b₁, a⟩ = s.readConfig ⟨b₂, a⟩

/-- A finite run: the moves made one after another, up to the first fault or refusal
(20_memory.md R58). -/
def runMoves : List Action → State → Host.Outcome State Fault Refusal
  | [], s => .next s
  | a :: rest, s =>
    match perform a s with
    | .next s' => runMoves rest s'
    | .fault f => .fault f
    | .refused r => .refused r

/-- Everything that is neither a register file nor thread `t`'s record is the same. -/
structure SameOutside (t : Nat) (s s' : State) : Prop where
  params : s'.params = s.params
  sched : s'.sched = s.sched
  tick : s'.tick = s.tick
  currentThread : s'.currentThread = s.currentThread
  nthreads : s'.nthreads = s.nthreads
  others : ∀ u, u ≠ t → s'.thread? u = s.thread? u

/-- Two outcomes that differ at most in what the flops hold. -/
def SameButFlops : Host.Outcome State Fault Refusal → Host.Outcome State Fault Refusal → Prop
  | .next a, .next b => { a with flops := [] } = { b with flops := [] }
  | .fault f, .fault g => f = g
  | .refused q, .refused r => q = r
  | _, _ => False

end Sys2Proof.Machine
end

