-- ==== Sys2Proof/Certificates/Slice0/Obligations.lean ====
section
/-! DEFINITION. The statements for the provers. Each docstring names the rule of spec/ the
statement formalises. A statement about every state holds for every value of every parameter of
00_scope.md R5, because the parameters stand in the state. -/

open Sys2Proof Sys2Proof.Machine

/-! ## Encoding -/

/-- R83, R80, R81: decode after encode is the identity on in-range arguments, for all four
instructions (the spec derives it, R83's own mark); and told of calls as they are written: a call
assembles exactly when every argument is below 2 to its field's width, to a word that decodes to the
well-formed instruction of just those arguments. -/
def Obligations.DecodeOfEncode : Prop :=
  (∀ i : Instr, i.WellFormed → decode (encode i) = .instr i) ∧
  (∀ (c : MacroCall) (w : Word), assemble c = some w →
    w.toNat = c.value ∧ ∃ i : Instr, i.WellFormed ∧ i.call = c ∧ decode w = .instr i) ∧
  (∀ a b c d e f : Nat, assemble (.reg2flop a b c d e f) = none ↔
    ¬(a < 4 ∧ b < 4 ∧ c < 4 ∧ d < 4 ∧ e < 1024 ∧ f < 64)) ∧
  (∀ a b c d : Nat, assemble (.streamwait a b c d) = none ↔
    ¬(a < 512 ∧ b < 2048 ∧ c < 2 ∧ d < 4)) ∧
  (∀ a b c : Nat, assemble (.streamwrcfg a b c) = none ↔ ¬(a < 4 ∧ b < 1024 ∧ c < 2048)) ∧
  (∀ a b c d e f : Nat, assemble (.cfgshiftmask a b c d e f) = none ↔
    ¬(a < 2 ∧ b < 8 ∧ c < 32 ∧ d < 32 ∧ e < 4 ∧ f < 256))

/-- R83: encode after decode is the identity on words that decode, and what decodes is well formed.
The spec derives it (R83's own mark). -/
def Obligations.EncodeOfDecode : Prop :=
  ∀ (w : Word) (i : Instr), decode w = .instr i → i.WellFormed ∧ encode i = w

/-- R78, R79: exactly which words the decoder refuses, and under which name. The refusals are the
spec's decision D13 (log 24). -/
def Obligations.DecoderRefusalsExact : Prop :=
  ∀ w : Word,
    (decode w = .refused .reservedBitSet ↔
      (w.toNat / 2 ^ 24 = 0xA7 ∧ w.getLsbD 2 = true) ∨ (w.toNat / 2 ^ 24 = 0xB7 ∧ w.getLsbD 23 = true)) ∧
    (decode w = .refused .opcodeNotInScope ↔
      w.toNat / 2 ^ 24 ≠ 0x48 ∧ w.toNat / 2 ^ 24 ≠ 0xA7 ∧ w.toNat / 2 ^ 24 ≠ 0xB7 ∧ w.toNat / 2 ^ 24 ≠ 0xB8)

/-- R72 to R75: one word of each family, written out bit by bit from the pattern strings, decodes
to the instruction it stands for. R80 (the spec derives it): the value of a call with an oversized
argument, which is an assembly error: the source's two examples, and a topmost field that carries
into the opcode. -/
def Obligations.SpecWordsDecode : Prop :=
  decode 0b10111000_0_000_00111_11000_01_01000000 = .instr (.cfgshiftmask .clearRegion .or 7 24 1 0x40) ∧
  decode 0b01001000_10_01_01_00_0000100001_000110 = .instr (.reg2flop .bits16 .localRegs 1 0 0x21 6) ∧
  decode 0b10100111_010000000_00000000011_1_0_01 = .instr (.streamwait 0x080 3 .numMsgs 1) ∧
  decode 0b10110111_0_01_0000100000_00001010101 = .instr (.streamwrcfg 1 0x20 0x55) ∧
  (MacroCall.streamwait 0 0 0 4).value = 0xA7000004 ∧
  (MacroCall.reg2flop 1 0 0 0 5 64).value = (MacroCall.reg2flop 1 0 0 0 6 0).value ∧
  (MacroCall.streamwait 512 0 0 0).value = 0xA8000000 ∧
  (MacroCall.streamwrcfg 8 0 0).value = (MacroCall.cfgshiftmask 0 0 0 0 0 0).value

/-- R84, the source's one worked encoding: the word is `0xB8BF8300 + A` for the 8-bit index `A`. The
spec derives it (R84's own mark). -/
def Obligations.UsageExampleWord : Prop :=
  ∀ A : Nat, A < 256 →
    (encode (.cfgshiftmask .keep .add 31 0 3 A)).toNat = 0xB8BF8300 + A ∧
    decode (BitVec.ofNat 32 (0xB8BF8300 + A)) = .instr (.cfgshiftmask .keep .add 31 0 3 A)

/-! ## Bits and the ALU -/

/-- R8: rotation right by `amount mod 32`, its formula, its bits, its identity case, and the rotation
left it equals. The identity case is the spec's own inference (R8's mark). -/
def Obligations.RotateRight : Prop :=
  ∀ (v : Word) (amount : Nat),
    (rotr32 v amount).toNat =
      ((v.toNat >>> (amount % 32)) ||| (v.toNat <<< (32 - amount % 32))) % 2 ^ 32 ∧
    (∀ i, i < 32 → (rotr32 v amount).getLsbD i = v.getLsbD ((i + amount) % 32)) ∧
    (amount % 32 = 0 → rotr32 v amount = v) ∧
    rotr32 v amount = v.rotateLeft ((32 - amount % 32) % 32)

/-- R102: the mask, the operand and the region; the operand has no bits outside the region; where the
low field of the scratch value lands. The second form of the mask and the region's law are the
spec's own inferences (R102's marks). -/
def Obligations.MaskAndRotation : Prop :=
  ∀ (maskWidth : Nat) (scratch : Word), maskWidth < 32 →
    (maskVal maskWidth).toNat = 2 ^ (maskWidth + 1) - 1 ∧
    maskVal maskWidth = (0xFFFFFFFF : Word) >>> (31 - maskWidth) ∧
    (∀ rot, cfgOperand maskWidth rot scratch = rotr32 (scratch &&& maskVal maskWidth) rot ∧
      cfgRegion maskWidth rot = rotr32 (maskVal maskWidth) rot ∧
      cfgOperand maskWidth rot scratch &&& ~~~cfgRegion maskWidth rot = 0) ∧
    (∀ p, p < 32 → ∀ j, j ≤ maskWidth →
      (cfgOperand maskWidth ((32 - p) % 32) scratch).getLsbD ((p + j) % 32) = scratch.getLsbD j ∧
      (cfgRegion maskWidth ((32 - p) % 32)).getLsbD ((p + j) % 32) = true) ∧
    (∀ j, j < 32 → (cfgOperand maskWidth 0 scratch).getLsbD j = (decide (j ≤ maskWidth) && scratch.getLsbD j))

/-- R103: the eight modes, as unsigned numbers; `~b` is `0xFFFFFFFF - b`. -/
def Obligations.AluModes : Prop :=
  ∀ a b : Word,
    (alu .or a b).toNat = a.toNat ||| b.toNat ∧
    (alu .and a b).toNat = a.toNat &&& b.toNat ∧
    (alu .xor a b).toNat = a.toNat ^^^ b.toNat ∧
    (alu .add a b).toNat = (a.toNat + b.toNat) % 2 ^ 32 ∧
    (alu .orNot a b).toNat = a.toNat ||| (0xFFFFFFFF - b.toNat) ∧
    (alu .andNot a b).toNat = a.toNat &&& (0xFFFFFFFF - b.toNat) ∧
    (alu .xorNot a b).toNat = a.toNat ^^^ (0xFFFFFFFF - b.toNat) ∧
    ((alu .sub a b).toNat : Int) = ((a.toNat : Int) - (b.toNat : Int)) % 2 ^ 32

/-- R104: the result of every pair of MaskMode and AluMode, for old value `C`, region `R` and operand
`S`; and the full-width case. The whole table is the spec's own inference (R104's mark). -/
def Obligations.MaskModeTable : Prop :=
  ∀ (mw rot : Nat) (scratch C : Word), mw < 32 →
    let R := cfgRegion mw rot
    let S := cfgOperand mw rot scratch
    (cfgshiftmaskResult .clearRegion .or mw rot scratch C = (C &&& ~~~R) ||| S) ∧
    (cfgshiftmaskResult .clearRegion .xor mw rot scratch C = (C &&& ~~~R) ||| S) ∧
    (cfgshiftmaskResult .clearRegion .add mw rot scratch C = (C &&& ~~~R) ||| S) ∧
    (cfgshiftmaskResult .clearRegion .and mw rot scratch C = 0) ∧
    (cfgshiftmaskResult .clearRegion .orNot mw rot scratch C = ~~~S) ∧
    (cfgshiftmaskResult .clearRegion .andNot mw rot scratch C = C &&& ~~~R) ∧
    (cfgshiftmaskResult .clearRegion .xorNot mw rot scratch C = (~~~C &&& ~~~R) ||| (~~~S &&& R)) ∧
    (cfgshiftmaskResult .clearRegion .sub mw rot scratch C = (C &&& ~~~R) - S) ∧
    (cfgshiftmaskResult .keep .or mw rot scratch C = C ||| S) ∧
    (cfgshiftmaskResult .keep .and mw rot scratch C = C &&& S) ∧
    (cfgshiftmaskResult .keep .xor mw rot scratch C = C ^^^ S) ∧
    (cfgshiftmaskResult .keep .add mw rot scratch C = C + S) ∧
    (cfgshiftmaskResult .keep .orNot mw rot scratch C = C ||| ~~~S) ∧
    (cfgshiftmaskResult .keep .andNot mw rot scratch C = C &&& ~~~S) ∧
    (cfgshiftmaskResult .keep .xorNot mw rot scratch C = C ^^^ ~~~S) ∧
    (cfgshiftmaskResult .keep .sub mw rot scratch C = C - S) ∧
    (mw = 31 → R = 0xFFFFFFFF ∧ S = rotr32 scratch rot)

/-- R52: byte `k` of a flop is bits `[8k+7:8k]`, and a byte write leaves the other three bytes as
they were. The byte numbering is the spec's own choice (D18, general knowledge). (Log 8.) -/
def Obligations.ByteOfFlop : Prop :=
  ∀ (w : Word) (k : Nat) (b : Byte), k < 4 →
    (byteOf w k).toNat = (w.toNat / 2 ^ (8 * k)) % 256 ∧
    (∀ j, j < 4 → byteOf (setByte w k b) j = if j = k then b else byteOf w j)

/-! ## CFGSHIFTMASK -/

/-- R100: with the state id, the scratch register's bank, the target and the selected scratch register
in range, CFGSHIFTMASK completes; the target takes the ALU's result of the old value (its region
cleared under MaskMode 0) and the masked, rotated scratch value; the thread goes on to its next
instruction. The scratch register's bank is the parameter of decision D5 (log 13), the thread's
state id or a fixed bank; its extent is decision D6 (log 14). -/
def Obligations.CfgshiftmaskResult : Prop :=
  ∀ (s : State) (th : Thread) (mm : MaskMode) (am : AluMode) (mw rot si ci a bank : Nat),
    s.thread? s.currentThread = some th →
    th.tcfg.stateId < s.params.cfgNumStates →
    (s.params.scratchBank = .ownState ∧ bank = th.tcfg.stateId) ∨ s.params.scratchBank = .fixed bank →
    bank < s.params.cfgNumStates →
    ci < s.params.cfgStateSize →
    s.params.scratchAddr32[if si < 3 then si else s.currentThread]? = some a →
    a < s.params.cfgStateSize →
    let target : RegAddr := ⟨th.tcfg.stateId, ci⟩
    let mask : Word := BitVec.ofNat 32 (2 ^ (mw + 1) - 1)
    let operand := rotr32 (s.readConfig ⟨bank, a⟩ &&& mask) rot
    let old := s.readConfig target
    let base := if mm = .clearRegion then old &&& ~~~rotr32 mask rot else old
    ∃ t, exec (.cfgshiftmask mm am mw rot si ci) s = .next t ∧
      t.readConfig target = alu am base operand ∧
      t.thread? s.currentThread =
        some { th with pc := th.pc + 1, lastWasCfgShiftMask := some target }

/-- R100, R51, R35: what a CFGSHIFTMASK that completes leaves alone: every Config register but its
target, the TDMA registers, the flops, the stream registers, every other thread, and of its own
thread the program, ThreadConfig, the latch and the pending copies. -/
def Obligations.CfgshiftmaskFrame : Prop :=
  ∀ (s t : State) (th : Thread) (mm : MaskMode) (am : AluMode) (mw rot si ci : Nat),
    s.thread? s.currentThread = some th →
    exec (.cfgshiftmask mm am mw rot si ci) s = .next t →
    SameOutside s.currentThread s t ∧
    t.tdma = s.tdma ∧ t.flops = s.flops ∧ t.streams = s.streams ∧
    (∀ a, a ≠ ⟨th.tcfg.stateId, ci⟩ → t.readConfig a = s.readConfig a) ∧
    ∃ th', t.thread? s.currentThread = some th' ∧ th'.prog = th.prog ∧ th'.tcfg = th.tcfg ∧
      th'.gate = th.gate ∧ th'.pendingStreamWrCfg = th.pendingStreamWrCfg

/-- R105: when the target is the selected scratch register itself, its one old value is both
operands: MaskMode 1, MaskWidth 31, RotateAmt 0 doubles it under ADD and zeroes it under XOR. The
spec derives it (R105's own mark). -/
def Obligations.TargetIsScratch : Prop :=
  ∀ (s : State) (th : Thread) (mm : MaskMode) (am : AluMode) (mw rot si ci : Nat),
    s.thread? s.currentThread = some th →
    th.tcfg.stateId < s.params.cfgNumStates →
    scratchBankOf s.params th.tcfg.stateId = th.tcfg.stateId →
    ci < s.params.cfgStateSize →
    s.params.scratchAddr32[if si < 3 then si else s.currentThread]? = some ci →
    let v := s.readConfig ⟨th.tcfg.stateId, ci⟩
    (∃ t, exec (.cfgshiftmask mm am mw rot si ci) s = .next t ∧
      t.readConfig ⟨th.tcfg.stateId, ci⟩ = cfgshiftmaskResult mm am mw rot v v) ∧
    (∃ t, exec (.cfgshiftmask .keep .add 31 0 si ci) s = .next t ∧
      (t.readConfig ⟨th.tcfg.stateId, ci⟩).toNat = (v.toNat + v.toNat) % 2 ^ 32) ∧
    (∃ t, exec (.cfgshiftmask .keep .xor 31 0 si ci) s = .next t ∧
      t.readConfig ⟨th.tcfg.stateId, ci⟩ = 0)

/-- R108: exactly when CFGSHIFTMASK refuses, under which name, and that it never faults. The
refusals are decision D4; that the state id is tested before the indices is the model's order, which
R108 does not give (log 23). The setting of `SCRATCH_BANK` is assumed to name a bank that exists
whenever the state id does (which the bounds on the parameters give); what happens otherwise is the
model's choice (log 13). -/
def Obligations.CfgshiftmaskRefusals : Prop :=
  ∀ (s : State) (th : Thread) (mm : MaskMode) (am : AluMode) (mw rot si ci : Nat),
    s.thread? s.currentThread = some th →
    (th.tcfg.stateId < s.params.cfgNumStates →
      scratchBankOf s.params th.tcfg.stateId < s.params.cfgNumStates) →
    (exec (.cfgshiftmask mm am mw rot si ci) s = .refused .cfgStateOutOfRange ↔
      s.params.cfgNumStates ≤ th.tcfg.stateId) ∧
    (exec (.cfgshiftmask mm am mw rot si ci) s = .refused .cfgIndexOutOfRange ↔
      th.tcfg.stateId < s.params.cfgNumStates ∧
      (s.params.cfgStateSize ≤ ci ∨
        s.params.nscratch ≤ (if si < 3 then si else s.currentThread) ∨
        ∃ a, s.params.scratchAddr32[if si < 3 then si else s.currentThread]? = some a ∧
          s.params.cfgStateSize ≤ a)) ∧
    (∀ r, exec (.cfgshiftmask mm am mw rot si ci) s = .refused r →
      r = .cfgStateOutOfRange ∨ r = .cfgIndexOutOfRange) ∧
    (∀ f, exec (.cfgshiftmask mm am mw rot si ci) s ≠ .fault f)

/-- R101: ScratchIndex 3 on thread `t` below 3 reads the same register as ScratchIndex `t`; with a
thread number at or above `NSCRATCH` it is refused. The first clause is the spec's own inference
(R101's mark). -/
def Obligations.ScratchIndexThree : Prop :=
  ∀ (s : State) (th : Thread) (mm : MaskMode) (am : AluMode) (mw rot ci : Nat),
    s.thread? s.currentThread = some th →
    (s.currentThread < 3 →
      exec (.cfgshiftmask mm am mw rot 3 ci) s = exec (.cfgshiftmask mm am mw rot s.currentThread ci) s) ∧
    (s.params.nscratch ≤ s.currentThread → th.tcfg.stateId < s.params.cfgNumStates →
      scratchBankOf s.params th.tcfg.stateId < s.params.cfgNumStates →
      exec (.cfgshiftmask mm am mw rot 3 ci) s = .refused .cfgIndexOutOfRange)

/-! ## REG2FLOP -/

/-- R22: with the TDMA registers banked per thread, `x[i]` is the issuing thread's own register, and
no write to another thread's bank is seen; with one shared file every thread reads the one shared
register, whose bank the model numbers 0 (log 9). The default setting is decision D19. -/
def Obligations.GeneralRegisterBanks : Prop :=
  ∀ (s : State) (i : Nat),
    (s.params.gprPerThread = true →
      s.readTdma i = s.tdma.read ⟨s.currentThread, i⟩ ∧
      ∀ (a : RegAddr) (v : Word), a.bank ≠ s.currentThread →
        ({ s with tdma := s.tdma.write a v } : State).readTdma i = s.readTdma i) ∧
    (s.params.gprPerThread = false →
      s.readTdma i = s.tdma.read ⟨0, i⟩ ∧
      ∀ t, ({ s with currentThread := t } : State).readTdma i = s.readTdma i)

/-- R121: SizeSel 1 replaces the whole flop by the whole register, whatever ByteOffset and
ContextId_2 are. Ignoring ContextId_2 is decision D17 (log 12), and bank 3 for TargetSel 3 is the
setting `bank3` of decision D14 (log 10). -/
def Obligations.Reg2flop32 : Prop :=
  ∀ (s : State) (th : Thread) (tg : TargetSel) (bo cx f r b : Nat),
    s.thread? s.currentThread = some th → flopBank? s.params tg = some b →
    f < s.params.nflop → r < s.params.ngpr →
    ∃ t, exec (.reg2flop .bits32 tg bo cx f r) s = .next t ∧
      t.readFlop ⟨b, f⟩ = s.readTdma r ∧
      t.thread? s.currentThread = some { th with pc := th.pc + 1, lastWasCfgShiftMask := none }

/-- R122: SizeSel 2 writes the register's low 16 bits to bits `[15:0]` (ByteOffset 0) or `[31:16]`
(ByteOffset 1) of the flop and keeps the other half; ByteOffset 2 and 3 are refused. The place of
the bytes is the PRESUMED byte order (log 8), the refusal decision D15 (log 11). Ignoring
ContextId_2 is D17 (log 12), bank 3 for TargetSel 3 is D14 (log 10). -/
def Obligations.Reg2flop16 : Prop :=
  ∀ (s : State) (th : Thread) (tg : TargetSel) (bo cx f r b : Nat),
    s.thread? s.currentThread = some th → flopBank? s.params tg = some b →
    (2 ≤ bo → exec (.reg2flop .bits16 tg bo cx f r) s = .refused .reg2FlopByteOffset) ∧
    (bo < 2 → f < s.params.nflop → r < s.params.ngpr →
      ∃ t, exec (.reg2flop .bits16 tg bo cx f r) s = .next t ∧
        (bo = 0 → (t.readFlop ⟨b, f⟩).toNat =
          (s.readFlop ⟨b, f⟩).toNat / 2 ^ 16 * 2 ^ 16 + (s.readTdma r).toNat % 2 ^ 16) ∧
        (bo = 1 → (t.readFlop ⟨b, f⟩).toNat =
          (s.readTdma r).toNat % 2 ^ 16 * 2 ^ 16 + (s.readFlop ⟨b, f⟩).toNat % 2 ^ 16) ∧
        t.thread? s.currentThread = some { th with pc := th.pc + 1, lastWasCfgShiftMask := none })

/-- R123: SizeSel 3 writes the register's low 8 bits to bits `[8k+7:8k]`, `k` = ByteOffset, and
keeps the other three bytes; all four offsets are in range. The place of the byte is the PRESUMED
byte order (log 8). Ignoring ContextId_2 is D17 (log 12), bank 3 for TargetSel 3 is D14 (log 10). -/
def Obligations.Reg2flop8 : Prop :=
  ∀ (s : State) (th : Thread) (tg : TargetSel) (bo cx f r b : Nat),
    s.thread? s.currentThread = some th → flopBank? s.params tg = some b →
    bo < 4 → f < s.params.nflop → r < s.params.ngpr →
    ∃ t, exec (.reg2flop .bits8 tg bo cx f r) s = .next t ∧
      (∀ j, j < 8 → (t.readFlop ⟨b, f⟩).getLsbD (8 * bo + j) = (s.readTdma r).getLsbD j) ∧
      (∀ j, j < 32 → j < 8 * bo ∨ 8 * bo + 8 ≤ j →
        (t.readFlop ⟨b, f⟩).getLsbD j = (s.readFlop ⟨b, f⟩).getLsbD j) ∧
      t.thread? s.currentThread = some { th with pc := th.pc + 1, lastWasCfgShiftMask := none }

/-- R124: SizeSel 0 writes four flops from FlopIndex on, not rounded, from the register group
`RegIndex` rounded down to a multiple of 4; past the last flop, or past index 1023, it is refused.
The refusal is decision D16 (log 11). Ignoring ContextId_2 is D17 (log 12), bank 3 for TargetSel 3
is D14 (log 10). -/
def Obligations.Reg2flop16Bytes : Prop :=
  ∀ (s : State) (th : Thread) (tg : TargetSel) (bo cx f r b : Nat),
    s.thread? s.currentThread = some th → flopBank? s.params tg = some b →
    (s.params.nflop ≤ f + 3 ∨ 1021 ≤ f →
      exec (.reg2flop .bytes16 tg bo cx f r) s = .refused .reg2FlopIndexOutOfRange) ∧
    (f + 3 < s.params.nflop → f < 1021 → 4 * (r / 4) + 3 < s.params.ngpr →
      ∃ t, exec (.reg2flop .bytes16 tg bo cx f r) s = .next t ∧
        (∀ i, i < 4 → t.readFlop ⟨b, f + i⟩ = s.readTdma (4 * (r / 4) + i)) ∧
        t.thread? s.currentThread = some { th with pc := th.pc + 1, lastWasCfgShiftMask := none })

/-- R120, R51: what a REG2FLOP that completes leaves alone: every flop but the ones its size writes
in the bank it names, the TDMA registers, Config, the stream registers, every other thread, and
of its own thread everything but the position and the CFGSHIFTMASK mark, which it clears. The
flops alias nothing: decision D20 (log 25). -/
def Obligations.Reg2flopFrame : Prop :=
  ∀ (s t : State) (th : Thread) (sz : SizeSel) (tg : TargetSel) (bo cx f r : Nat),
    s.thread? s.currentThread = some th →
    exec (.reg2flop sz tg bo cx f r) s = .next t →
    SameOutside s.currentThread s t ∧
    t.tdma = s.tdma ∧ t.config = s.config ∧ t.streams = s.streams ∧
    (∀ a : RegAddr,
      ¬(some a.bank = flopBank? s.params tg ∧ f ≤ a.index ∧
        a.index < f + (if sz = .bytes16 then 4 else 1)) →
      t.readFlop a = s.readFlop a) ∧
    t.thread? s.currentThread = some { th with pc := th.pc + 1, lastWasCfgShiftMask := none }

/-- R125: `ContextId_2` never matters, and `ByteOffset` does not matter for SizeSel 0 and 1; the
decoder keeps both fields. Ignoring the fields is decision D17 (log 12). -/
def Obligations.Reg2flopUnusedFields : Prop :=
  (∀ (s : State) (sz : SizeSel) (tg : TargetSel) (bo cx cx' f r : Nat),
    exec (.reg2flop sz tg bo cx f r) s = exec (.reg2flop sz tg bo cx' f r) s) ∧
  (∀ (s : State) (sz : SizeSel) (tg : TargetSel) (bo bo' cx f r : Nat),
    sz = .bytes16 ∨ sz = .bits32 →
    exec (.reg2flop sz tg bo cx f r) s = exec (.reg2flop sz tg bo' cx f r) s) ∧
  (∀ w : Word, w.toNat / 2 ^ 24 = 0x48 → ∃ sz tg bo cx f r,
    decode w = .instr (.reg2flop sz tg bo cx f r) ∧
    bo = w.toNat / 2 ^ 18 % 4 ∧ cx = w.toNat / 2 ^ 16 % 4)

/-- R126: TargetSel 0, 1, 2 select flop bank 0, 1, 2; TargetSel 3 is refused under `REG2FLOP_TARGET3
= refuse` and selects bank 3 under `bank3`, whatever ContextId_2 is; an in-range REG2FLOP on a
bank completes and changes flops of that bank alone. The two settings are decision D14 (log 10).
-/
def Obligations.Reg2flopTargets : Prop :=
  ∀ (s : State) (th : Thread) (sz : SizeSel) (bo cx f r : Nat),
    s.thread? s.currentThread = some th →
    (∀ tg, tg ≠ .overrideCtx ∨ s.params.target3 = .bank3 →
      flopBank? s.params tg = some tg.code) ∧
    (∀ tg t, exec (.reg2flop sz tg bo cx f r) s = .next t →
      ∀ a, t.readFlop a ≠ s.readFlop a → a.bank = tg.code) ∧
    (s.params.target3 = .refuse →
      exec (.reg2flop sz .overrideCtx bo cx f r) s = .refused .reg2FlopTarget3) ∧
    (∀ tg, tg ≠ .overrideCtx ∨ s.params.target3 = .bank3 → bo < 2 →
      f + 3 < s.params.nflop → f < 1021 → 4 * (r / 4) + 3 < s.params.ngpr →
      ∃ t, exec (.reg2flop sz tg bo cx f r) s = .next t)

/-- R129: exactly when REG2FLOP refuses, under which name, in the order Target3, ByteOffset,
IndexOutOfRange; and it never faults. Names and order are decision D24 (log 11). -/
def Obligations.Reg2flopRefusals : Prop :=
  ∀ (s : State) (th : Thread) (sz : SizeSel) (tg : TargetSel) (bo cx f r : Nat),
    s.thread? s.currentThread = some th →
    let badTarget := tg = .overrideCtx ∧ s.params.target3 = .refuse
    let badOffset := sz = .bits16 ∧ 2 ≤ bo
    let badIndex := (sz = .bytes16 ∧
        (s.params.nflop ≤ f + 3 ∨ 1021 ≤ f ∨ s.params.ngpr ≤ 4 * (r / 4) + 3)) ∨
      (sz ≠ .bytes16 ∧ (s.params.nflop ≤ f ∨ s.params.ngpr ≤ r))
    (exec (.reg2flop sz tg bo cx f r) s = .refused .reg2FlopTarget3 ↔ badTarget) ∧
    (exec (.reg2flop sz tg bo cx f r) s = .refused .reg2FlopByteOffset ↔ ¬badTarget ∧ badOffset) ∧
    (exec (.reg2flop sz tg bo cx f r) s = .refused .reg2FlopIndexOutOfRange ↔
      ¬badTarget ∧ ¬badOffset ∧ badIndex) ∧
    (∀ q, exec (.reg2flop sz tg bo cx f r) s = .refused q →
      q = .reg2FlopTarget3 ∨ q = .reg2FlopByteOffset ∨ q = .reg2FlopIndexOutOfRange) ∧
    (∀ x, exec (.reg2flop sz tg bo cx f r) s ≠ .fault x)

/-! ## STREAMWAIT -/

/-- R140, R143: exec of STREAMWAIT completes on every thread, whatever latch is there and whatever
the stream registers hold, and writes the five components of the latch; the thread goes on. (An
attempt may be held first, by a latch on B1: R151, SecondStreamwait.) The target's overlap is
decision D9 (log 15), the overwriting of a latch already there decision D10 (log 16). -/
def Obligations.StreamwaitWritesLatch : Prop :=
  ∀ (s : State) (th : Thread) (sr : BlockMask) (tv : Nat) (ts : CondIndex) (ws : Fin 4),
    s.thread? s.currentThread = some th →
    ∃ t l, exec (.streamwait sr tv ts ws) s = .next t ∧
      t.thread? s.currentThread =
        some { th with gate := some l, pc := th.pc + 1, lastWasCfgShiftMask := none } ∧
      l.opcode = .streamwait ∧
      (ts = .phase → l.conditionMask = 1#2 ∧ l.targetValue = (th.tcfg.phaseHi <<< 10) ||| tv) ∧
      (ts = .numMsgs → l.conditionMask = 2#2 ∧ l.targetValue = (th.tcfg.numMsgsHi <<< 10) ||| tv) ∧
      l.streamSelect = ws ∧
      l.blockMask = (if sr = 0 then 0x040 else sr)

/-- R140, R150, R151: what STREAMWAIT leaves alone: every register file, every other thread, and of
its own thread the program, ThreadConfig and the pending copies. -/
def Obligations.StreamwaitFrame : Prop :=
  ∀ (s t : State) (th : Thread) (sr : BlockMask) (tv : Nat) (ts : CondIndex) (ws : Fin 4),
    s.thread? s.currentThread = some th →
    exec (.streamwait sr tv ts ws) s = .next t →
    SameOutside s.currentThread s t ∧
    t.tdma = s.tdma ∧ t.config = s.config ∧ t.flops = s.flops ∧ t.streams = s.streams ∧
    ∃ th', t.thread? s.currentThread = some th' ∧ th'.prog = th.prog ∧ th'.tcfg = th.tcfg ∧
      th'.pendingStreamWrCfg = th.pendingStreamWrCfg

/-- R141: the target is `(hi << 10) | target_value` as a natural number, for the 11-bit field: each
of its bits, the overlap at bit 10, and the case without overlap; and a latch's condition does
not depend on a later change of the high fields. The overlap is decision D9 (log 15). -/
def Obligations.StreamwaitTarget : Prop :=
  (∀ hi lo : Nat, lo < 2048 →
    streamTarget hi lo = (hi * 1024) ||| lo ∧
    (∀ i, i < 10 → (streamTarget hi lo).testBit i = lo.testBit i) ∧
    (streamTarget hi lo).testBit 10 = (hi.testBit 0 || lo.testBit 10) ∧
    (∀ i, 10 < i → (streamTarget hi lo).testBit i = hi.testBit (i - 10)) ∧
    (lo < 1024 → streamTarget hi lo = hi * 1024 + lo)) ∧
  (∀ (tcfg : ThreadConfig) (sr : BlockMask) (tv : Nat) (ws : Fin 4),
    (streamwaitLatch tcfg sr tv .phase ws).targetValue = streamTarget tcfg.phaseHi tv ∧
    (streamwaitLatch tcfg sr tv .numMsgs ws).targetValue = streamTarget tcfg.numMsgsHi tv) ∧
  (∀ (p : Params) (st : RegFile) (th : Thread) (l : Latch) (x y : Nat),
    keepBlocking p st { th with tcfg := { th.tcfg with phaseHi := x, numMsgsHi := y } } l =
      keepBlocking p st th l)

/-- R142: a zero mask latches B6 (STALL_MATH), any other mask itself; the latched mask is never
zero; and a latch with the default mask holds none of the four instructions. The last clause is the
spec's own consequence of R146 and R147 (vector K7, program P5). -/
def Obligations.DefaultBlockMask : Prop :=
  (∀ (tcfg : ThreadConfig) (sr : BlockMask) (tv : Nat) (ts : CondIndex) (ws : Fin 4),
    (streamwaitLatch tcfg sr tv ts ws).blockMask = (if sr = 0 then 1#9 <<< 6 else sr) ∧
    (streamwaitLatch tcfg sr tv ts ws).blockMask ≠ 0) ∧
  (∀ (p : Params) (st : RegFile) (th : Thread) (l : Latch) (i : Instr),
    th.gate = some l → l.blockMask = 0x040 → gateVerdict p st th i = .notBlocked)

/-! ## The Wait Gate -/

/-- R146: the block classes of the four instructions, and bit `15 + k` of a STREAMWAIT word is bit
`k` of its mask. -/
def Obligations.BlockClasses : Prop :=
  (∀ sz tg bo cx f r, stallBits (.reg2flop sz tg bo cx f r) = 0x021) ∧
  (∀ sr tv ts ws, stallBits (.streamwait sr tv ts ws) = 0x002) ∧
  (∀ mm am mw rot si ci, stallBits (.cfgshiftmask mm am mw rot si ci) = 0x080) ∧
  (∀ sel ra cr, stallBits (.streamwrcfg sel ra cr) = 0x080) ∧
  (∀ (sr : BlockMask) (tv : Nat) (ts : CondIndex) (ws : Fin 4) (k : Nat), tv < 2048 → k < 9 →
    (encode (.streamwait sr tv ts ws)).getLsbD (15 + k) = sr.getLsbD k)

/-- R144: a latch's condition compares the phase register (C0) and the messages-received register
(C1), as unsigned numbers, with the target: which registers count is the condition mask's choice. A
target of 0 is met at once, one above `2^32 - 1` never; a stream that does not exist is refused.
Told by the Wait Gate's verdict on an instruction of a masked class. Unsigned is decision D8 (log
15), the refusal D21 (log 23). That one of a REG2FLOP's two classes is enough to be asked is
decision D11 (log 17). -/
def Obligations.LatchCondition : Prop :=
  ∀ (p : Params) (st : RegFile) (th : Thread) (l : Latch) (i : Instr),
    th.gate = some l → l.blockMask &&& stallBits i ≠ 0 →
    let stream := th.tcfg.bankSel[l.streamSelect]
    let phase := (st.read ⟨stream, p.currPhaseReg⟩).toNat
    let numMsgs := (st.read ⟨stream, p.numMsgsReg⟩).toNat
    (p.nstreams ≤ stream → gateVerdict p st th i = .streamOutOfRange) ∧
    (stream < p.nstreams → p.currPhaseReg < p.nstreamregs → p.numMsgsReg < p.nstreamregs →
      (gateVerdict p st th i = .hold ↔
        (l.conditionMask.getLsbD 0 = true ∧ phase < l.targetValue) ∨
        (l.conditionMask.getLsbD 1 = true ∧ numMsgs < l.targetValue)) ∧
      (gateVerdict p st th i = .met ↔
        (l.conditionMask.getLsbD 0 = true → l.targetValue ≤ phase) ∧
        (l.conditionMask.getLsbD 1 = true → l.targetValue ≤ numMsgs)) ∧
      (l.targetValue = 0 → gateVerdict p st th i = .met) ∧
      (2 ^ 32 - 1 < l.targetValue → l.conditionMask = 1#2 ∨ l.conditionMask = 2#2 →
        gateVerdict p st th i = .hold))

/-- R147: a thread whose next instruction has a class in its latch's mask and whose condition is not
met is held, with no change of state at all; otherwise the instruction is executed by its own rule,
by the thread that attempts it; a condition that has to be evaluated and cannot be (R144, R183) is
refused first. Under `LATCH_CLEARS_WHEN_MET = always` a latch seen met is dropped before the
instruction executes: that clause is the model's choice (log 16). That either of a REG2FLOP's two
classes is enough is decision D11 (log 17); a hold that answers a next state is the model's form of
R11's outcome (log 5). -/
def Obligations.HoldRule : Prop :=
  ∀ (s : State) (t : Nat) (th : Thread) (w : Word) (i : Instr),
    s.thread? t = some th → th.prog[th.pc]? = some w → decode w = .instr i →
    (∀ l, th.gate = some l → l.blockMask &&& stallBits i ≠ 0 → latchInRange s.params th l = true →
      keepBlocking s.params s.streams th l = true → perform (.threadStep t) s = .next s) ∧
    (∀ l, th.gate = some l → l.blockMask &&& stallBits i ≠ 0 → latchInRange s.params th l = true →
      keepBlocking s.params s.streams th l = false →
      perform (.threadStep t) s = exec i
        (if s.params.latchClears = .always
          then { s with currentThread := t, threads := s.threads.set t { th with gate := none } }
          else { s with currentThread := t })) ∧
    (∀ l, th.gate = some l → l.blockMask &&& stallBits i ≠ 0 → latchInRange s.params th l = false →
      perform (.threadStep t) s = .refused .streamIndexOutOfRange) ∧
    (∀ l, th.gate = some l → l.blockMask &&& stallBits i = 0 →
      perform (.threadStep t) s = exec i { s with currentThread := t }) ∧
    (th.gate = none → perform (.threadStep t) s = exec i { s with currentThread := t })

/-- R145: after a STREAMWAIT has executed, and after any further moves of the machine, while its latch
stands: the thread's next instruction executes normally when none of its classes is in the latched
mask, whatever the stream registers hold; when a class is in the mask and the condition is not met,
that instruction is one that waits. That either of two classes is enough is decision D11 (log 17);
waiting as an unchanged next state is log 5. -/
def Obligations.LatchedNotImmediate : Prop :=
  ∀ (s s₁ s₂ : State) (moves : List Action) (th₁ th₂ : Thread) (l : Latch) (sr : BlockMask) (tv : Nat)
    (ts : CondIndex) (ws : Fin 4) (w : Word) (i : Instr) (st : RegFile),
    exec (.streamwait sr tv ts ws) s = .next s₁ →
    s₁.thread? s.currentThread = some th₁ → th₁.gate = some l →
    runMoves moves s₁ = .next s₂ →
    s₂.thread? s.currentThread = some th₂ → th₂.gate = some l →
    th₂.prog[th₂.pc]? = some w → decode w = .instr i →
    let s₃ : State := { s₂ with streams := st }
    ((if sr = 0 then 0x040 else sr) &&& stallBits i = 0 →
      perform (.threadStep s.currentThread) s₃ = exec i { s₃ with currentThread := s.currentThread }) ∧
    ((if sr = 0 then 0x040 else sr) &&& stallBits i ≠ 0 → latchInRange s₂.params th₂ l = true →
      keepBlocking s₂.params st th₂ l = true →
      perform (.threadStep s.currentThread) s₃ = .next s₃)

/-- R148: a STREAMWAIT attempted while a latch is present is held when the latch's mask has B1 and
its condition is unmet; with B1 not in the mask, or the condition met, it completes and its own
latch replaces the old one, met or not. (With B1 in the mask and a condition that cannot be
evaluated it is refused, R144.) The overwriting is decision D10 (log 16). A hold that answers a next
state is log 5. -/
def Obligations.SecondStreamwait : Prop :=
  ∀ (s : State) (t : Nat) (th : Thread) (w : Word) (l : Latch) (sr : BlockMask) (tv : Nat)
    (ts : CondIndex) (ws : Fin 4),
    s.thread? t = some th → th.prog[th.pc]? = some w → decode w = .instr (.streamwait sr tv ts ws) →
    th.gate = some l →
    (l.blockMask.getLsbD 1 = true → latchInRange s.params th l = true →
      keepBlocking s.params s.streams th l = true → perform (.threadStep t) s = .next s) ∧
    (l.blockMask.getLsbD 1 = true → latchInRange s.params th l = false →
      perform (.threadStep t) s = .refused .streamIndexOutOfRange) ∧
    (l.blockMask.getLsbD 1 = false ∨
        (latchInRange s.params th l = true ∧ keepBlocking s.params s.streams th l = false) →
      ∃ s' th', perform (.threadStep t) s = .next s' ∧ s'.thread? t = some th' ∧
        th'.gate = some (streamwaitLatch th.tcfg sr tv ts ws) ∧ th'.pc = th.pc + 1)

/-- R149, R207: the gate's release drops the thread's latch when its condition can be evaluated and is
met, and changes nothing else; with no latch, a condition that is not met, or a condition that cannot
be evaluated because its stream does not exist, it does nothing. The release is decision D10 (log
16); doing nothing when it is not enabled is the model's (log 6), and so is that it is not enabled
when the condition cannot be evaluated (log 30). -/
def Obligations.ReleaseDropsMetLatch : Prop :=
  ∀ (s : State) (t : Nat) (th : Thread), s.thread? t = some th →
    (∀ l, th.gate = some l → latchInRange s.params th l = true →
      keepBlocking s.params s.streams th l = false →
      ∃ s', perform (.gateRelease t) s = .next s' ∧ s'.thread? t = some { th with gate := none } ∧
        SameOutside t s s' ∧ s'.tdma = s.tdma ∧ s'.config = s.config ∧ s'.flops = s.flops ∧
        s'.streams = s.streams) ∧
    (th.gate = none → perform (.gateRelease t) s = .next s) ∧
    (∀ l, th.gate = some l → keepBlocking s.params s.streams th l = true →
      perform (.gateRelease t) s = .next s) ∧
    (∀ l, th.gate = some l → latchInRange s.params th l = false →
      perform (.gateRelease t) s = .next s)

/-- R149: dropping a latch whose condition is met changes nothing of the thread's next attempt but the
latch: if the attempt moved the thread before, it moves it after to the same state, the latch of
thread `t` apart; if it was refused before, it is refused after under the same name. (Logs 6, 16.) -/
def Obligations.ReleaseIsUnobservable : Prop :=
  ∀ (s : State) (t : Nat) (th : Thread),
    s.thread? t = some th → gateReleasable s th = true →
    (∀ (s₁ : State) (th₁ : Thread),
      perform (.threadStep t) s = .next s₁ → s₁.thread? t = some th₁ →
      ∃ s₂ g, perform (.threadStep t) (gateRelease t s) = .next s₂ ∧
        s₂.setThread t { th₁ with gate := g } = s₁.setThread t { th₁ with gate := g } ∧
        s₂.thread? t = some { th₁ with gate := g }) ∧
    (∀ r, perform (.threadStep t) s = .refused r →
      perform (.threadStep t) (gateRelease t s) = .refused r)

/-- R149, under the premise that no stream register decreases: once a latch's condition is met it
stays met. The spec derives it (R149's own mark). -/
def Obligations.MetStaysMet : Prop :=
  ∀ (p : Params) (st st' : RegFile) (th : Thread) (l : Latch),
    (∀ a, (st.read a).toNat ≤ (st'.read a).toNat) →
    keepBlocking p st th l = false → keepBlocking p st' th l = false

/-! ## STREAMWRCFG -/

/-- R160, R203(a): with the stream, the state id and the Config index in range, STREAMWRCFG completes
its issue: the copy is queued behind the thread's earlier ones, with `BankSel` and the state id
as they are now, and the thread goes on. The split is decision D22 (log 19). -/
def Obligations.StreamwrcfgIssues : Prop :=
  ∀ (s : State) (th : Thread) (sel : Fin 4) (ra cr : Nat),
    s.thread? s.currentThread = some th →
    th.tcfg.bankSel[sel] < s.params.nstreams → ra < s.params.nstreamregs →
    th.tcfg.stateId < s.params.cfgNumStates → cr < s.params.cfgStateSize →
    ∃ t, exec (.streamwrcfg sel ra cr) s = .next t ∧
      t.thread? s.currentThread =
        some { th with
          pendingStreamWrCfg :=
            th.pendingStreamWrCfg ++ [⟨⟨th.tcfg.bankSel[sel], ra⟩, ⟨th.tcfg.stateId, cr⟩⟩]
          pc := th.pc + 1
          lastWasCfgShiftMask := none }

/-- R160, R203(a), R54: the issue of a STREAMWRCFG writes no register file: Config takes its value
only when the copy is performed; every other thread, and of its own thread the program, ThreadConfig
and the latch, are left alone. The split into issue and perform is decision D22 (log 19). -/
def Obligations.StreamwrcfgFrame : Prop :=
  ∀ (s t : State) (th : Thread) (sel : Fin 4) (ra cr : Nat),
    s.thread? s.currentThread = some th →
    exec (.streamwrcfg sel ra cr) s = .next t →
    SameOutside s.currentThread s t ∧
    t.tdma = s.tdma ∧ t.config = s.config ∧ t.flops = s.flops ∧ t.streams = s.streams ∧
    ∃ th', t.thread? s.currentThread = some th' ∧ th'.prog = th.prog ∧ th'.tcfg = th.tcfg ∧
      th'.gate = th.gate

/-- R166: exactly when STREAMWRCFG refuses, under which name, in the order stream, state, index; and
it never faults. Names and order are decision D24 (log 23). -/
def Obligations.StreamwrcfgRefusals : Prop :=
  ∀ (s : State) (th : Thread) (sel : Fin 4) (ra cr : Nat),
    s.thread? s.currentThread = some th →
    let badStream := s.params.nstreams ≤ th.tcfg.bankSel[sel] ∨ s.params.nstreamregs ≤ ra
    let badState := s.params.cfgNumStates ≤ th.tcfg.stateId
    let badIndex := s.params.cfgStateSize ≤ cr
    (exec (.streamwrcfg sel ra cr) s = .refused .streamIndexOutOfRange ↔ badStream) ∧
    (exec (.streamwrcfg sel ra cr) s = .refused .cfgStateOutOfRange ↔ ¬badStream ∧ badState) ∧
    (exec (.streamwrcfg sel ra cr) s = .refused .cfgIndexOutOfRange ↔
      ¬badStream ∧ ¬badState ∧ badIndex) ∧
    (∀ q, exec (.streamwrcfg sel ra cr) s = .refused q →
      q = .streamIndexOutOfRange ∨ q = .cfgStateOutOfRange ∨ q = .cfgIndexOutOfRange) ∧
    (∀ x, exec (.streamwrcfg sel ra cr) s ≠ .fault x)

/-- R203(b), R162: the perform step removes the thread's oldest pending copy and writes its Config
register, all 32 bits, with what the stream register holds at this moment; every other Config
register, every other file and every other thread is left alone. The split is decision D22 (log 19).
That the read leaves the stream registers as they are is the assumption D21 (log 22). -/
def Obligations.PerformCopies : Prop :=
  ∀ (s : State) (t : Nat) (th : Thread) (c : StreamCopy) (rest : List StreamCopy),
    s.thread? t = some th → th.pendingStreamWrCfg = c :: rest →
    ∃ s', perform (.cfgPerform t) s = .next s' ∧
      s'.readConfig c.target = s.readStream c.source ∧
      (∀ a, a ≠ c.target → s'.readConfig a = s.readConfig a) ∧
      s'.thread? t = some { th with pendingStreamWrCfg := rest } ∧
      SameOutside t s s' ∧ s'.tdma = s.tdma ∧ s'.flops = s.flops ∧ s'.streams = s.streams

/-- R203(b): copies of one thread perform in issue order: of two pending copies into one Config
register, the one issued later decides its value, whatever the environment writes between the two
and however often: the register ends with what the later copy's stream register holds when that copy
is performed. The split is decision D22 (log 19); a write to a stream register that does not exist
does nothing (log 6). -/
def Obligations.PerformInIssueOrder : Prop :=
  ∀ (s : State) (t : Nat) (th : Thread) (c d : StreamCopy) (rest : List StreamCopy)
    (writes : List (RegAddr × Word)),
    s.thread? t = some th → th.pendingStreamWrCfg = c :: d :: rest → c.target = d.target →
    ∃ s₁ s', runMoves (.cfgPerform t :: writes.map fun e => .envStep e.1.bank e.1.index e.2) s = .next s₁ ∧
      s₁.readConfig d.target = s.readStream c.source ∧
      perform (.cfgPerform t) s₁ = .next s' ∧
      s'.readConfig d.target = s₁.readStream d.source ∧
      s'.thread? t = some { th with pendingStreamWrCfg := rest }

/-- R203: an instruction of any thread commutes with the perform step of a pending copy, when it is
no CFGSHIFTMASK, or a CFGSHIFTMASK whose target and scratch register are not the copy's target:
the two orders end in the same state. The spec derives it (R203's own mark; log 19). -/
def Obligations.OvertakingCommutes : Prop :=
  ∀ (s s₁ : State) (i : Instr) (th tu : Thread) (u : Nat) (c : StreamCopy) (rest : List StreamCopy),
    s.config.Canonical →
    s.thread? s.currentThread = some th → s.thread? u = some tu → tu.pendingStreamWrCfg = c :: rest →
    (∀ mm am mw rot si ci, i = .cfgshiftmask mm am mw rot si ci →
      c.target ≠ ⟨th.tcfg.stateId, ci⟩ ∧
      ∀ a, s.params.scratchAddr32[if si < 3 then si else s.currentThread]? = some a →
        c.target ≠ ⟨scratchBankOf s.params th.tcfg.stateId, a⟩) →
    exec i s = .next s₁ → exec i (cfgPerform u s) = .next (cfgPerform u s₁)

/-- R208, R203(b): under the fairness the spec assumes, every pending copy is performed: at some later
point the schedule makes the thread's perform step while that copy is the oldest, and its Config
register takes what its stream register then holds. The fairness is decision D31 (log 28). -/
def Obligations.PendingIsPerformed : Prop :=
  ∀ (acts : Nat → Action) (σ : Nat → State) (n t : Nat) (th : Thread) (c : StreamCopy),
    FairRun acts σ → (σ n).thread? t = some th → c ∈ th.pendingStreamWrCfg →
    ∃ m th' rest', n ≤ m ∧ acts m = .cfgPerform t ∧ (σ m).thread? t = some th' ∧
      th'.pendingStreamWrCfg = c :: rest' ∧ (σ (m + 1)).readConfig c.target = (σ m).readStream c.source

/-! ## The machine as a whole -/

/-- R207 lines 1 and 4: when the word at thread `t`'s position decodes to `i` and no latch blocks a
class of `i`, thread `t`'s move is exec of `i` at the state with `CurrentThread` = `t`; and when
that move heads the schedule's list, the step is this with the move used up. (With a latch on a
class of `i`, see HoldRule; a free move, see StepMakesScheduledMove.) That a list of moves in the
state says which step is next is the model's (log 1). -/
def Obligations.StepRunsDecodedInstruction : Prop :=
  ∀ (s : State) (t : Nat) (th : Thread) (w : Word) (i : Instr) (rest : List Action),
    s.thread? t = some th → th.prog[th.pc]? = some w → decode w = .instr i →
    (∀ l, th.gate = some l → l.blockMask &&& stallBits i = 0) →
    perform (.threadStep t) s = exec i { s with currentThread := t } ∧
    (s.sched = .threadStep t :: rest →
      step s = exec i { s with sched := rest, currentThread := t })

/-- R207, R58: one step makes the move at the head of the state's list of moves and uses it up; with
the list empty it makes a free move, whichever that is (the model's choice, log 1). -/
def Obligations.StepMakesScheduledMove : Prop :=
  ∀ (s : State),
    (∀ a rest, s.sched = a :: rest → step s = perform a { s with sched := rest }) ∧
    (s.sched = [] → step s = perform (Config.freeAction s.tick) { s with tick := s.tick + 1 })

/-- The model's own placing of a word (log 7), with R207: after `withFetchWord` the very next step
is exec of the instruction the word decodes to. -/
def Obligations.PlacedWordRunsNext : Prop :=
  ∀ (s : State) (th : Thread) (w : Word) (i : Instr),
    s.thread? s.currentThread = some th → th.gate = none → decode w = .instr i →
    ∃ prog, prog[th.pc]? = some w ∧
      step (s.withFetchWord 32 w.toNat) = exec i (s.setThread s.currentThread { th with prog := prog })

/-- R183: a word the decoder refuses is refused under the decoder's name whatever the Wait Gate would
say. The order is decision D24 (log 24). -/
def Obligations.DecoderRefusesFirst : Prop :=
  ∀ (s : State) (t : Nat) (th : Thread) (w : Word),
    s.thread? t = some th → th.prog[th.pc]? = some w →
    (decode w = .refused .opcodeNotInScope →
      perform (.threadStep t) s = .refused .opcodeNotInScope) ∧
    (decode w = .refused .reservedBitSet → perform (.threadStep t) s = .refused .reservedBitSet)

/-- R202: no run of the four instructions faults: no step of any state answers a fault, although a
CFGSHIFTMASK may have been the thread's last instruction. The spec derives it (R202's own mark;
log 20). -/
def Obligations.NoStepFaults : Prop :=
  ∀ (s : State) (f : Fault), step s ≠ .fault f

/-- R181: a step refuses only under one of the spec's eight names. The names are decision D24. -/
def Obligations.StepRefusalNames : Prop :=
  ∀ (s : State) (r : Refusal), step s = .refused r →
    r ∈ [Refusal.opcodeNotInScope, .reservedBitSet, .cfgStateOutOfRange, .cfgIndexOutOfRange,
      .streamIndexOutOfRange, .reg2FlopTarget3, .reg2FlopByteOffset, .reg2FlopIndexOutOfRange]

/-- R22, R26, R32, R37, R63: no step changes a parameter, a TDMA register, a program or a
ThreadConfig field, or the number of threads; and the stream registers change only by the
environment's step. (Logs 22, 32.) -/
def Obligations.ReadOnlyState : Prop :=
  ∀ s s' : State, step s = .next s' →
    s'.params = s.params ∧ s'.tdma = s.tdma ∧ s'.nthreads = s.nthreads ∧
    (∀ t th, s.thread? t = some th → ∃ th', s'.thread? t = some th' ∧
      th'.prog = th.prog ∧ th'.tcfg = th.tcfg) ∧
    (s'.streams ≠ s.streams → ∃ stream reg v, nextAction s = .envStep stream reg v)

/-- R21: a step that answers a next state leaves each thread's position as it is or adds 1 to it, and
adds 1 only for the thread whose step it was; that thread then was not held. The position is
decision D3; a held or disabled move is logs 5, 6. -/
def Obligations.PositionAdvancesByOne : Prop :=
  ∀ (s s' : State) (t : Nat) (th th' : Thread), step s = .next s' →
    s.thread? t = some th → s'.thread? t = some th' →
    th'.pc = th.pc ∨
      (th'.pc = th.pc + 1 ∧ nextAction s = .threadStep t ∧ th.pc < th.prog.length ∧
        ∀ w i, th.prog[th.pc]? = some w → decode w = .instr i →
          gateVerdict s.params s.streams th i ≠ .hold)

/-- R32: the environment's step sets one stream register that exists to any value and changes nothing
else. The free environment is decision D21 (log 22). -/
def Obligations.EnvStepSetsOneRegister : Prop :=
  ∀ (s : State) (stream reg : Nat) (v : Word),
    stream < s.params.nstreams → reg < s.params.nstreamregs →
    ∃ s', perform (.envStep stream reg v) s = .next s' ∧
      s'.readStream ⟨stream, reg⟩ = v ∧
      (∀ a, a ≠ ⟨stream, reg⟩ → s'.readStream a = s.readStream a) ∧
      { s' with streams := s.streams } = s

/-- R147, R187: a thread's step neither reads nor changes another thread's own state: with any other
record for thread `u` it has the same outcome, that record apart. (A held or disabled attempt: logs
5, 6.) -/
def Obligations.ThreadsArePrivate : Prop :=
  ∀ (s : State) (t u : Nat) (th' : Thread), t ≠ u →
    (∀ s₁, perform (.threadStep t) s = .next s₁ →
      perform (.threadStep t) (s.setThread u th') = .next (s₁.setThread u th') ∧
      s₁.thread? u = s.thread? u) ∧
    (∀ r, perform (.threadStep t) s = .refused r →
      perform (.threadStep t) (s.setThread u th') = .refused r)

/-- R31, R128: the flops are a write-only sink: whatever they hold, a step has the same outcome, what
the flops themselves hold apart. The flops' storage is decision D20 (log 25). -/
def Obligations.FlopsAreWriteSink : Prop :=
  ∀ (s : State) (f : RegFile), SameButFlops (step { s with flops := f }) (step s)

/-- R55, P7: two threads' full-width ADDs of their own scratch entries to one Config register lose no
update: in either order both complete and the register ends as its old value plus both scratch
values, mod 2^32, for either setting of `SCRATCH_BANK` (log 13) and scratch registers that are not
the target. Atomicity is decision D27 (log 21). -/
def Obligations.TwoThreadsAddBoth : Prop :=
  ∀ (s : State) (t u : Nat) (tht thu : Thread) (ci at' au sid bank : Nat),
    t ≠ u → s.thread? t = some tht → s.thread? u = some thu →
    (s.params.scratchBank = .ownState ∧ bank = sid) ∨ s.params.scratchBank = .fixed bank →
    bank < s.params.cfgNumStates →
    tht.tcfg.stateId = sid → thu.tcfg.stateId = sid → sid < s.params.cfgNumStates →
    ci < s.params.cfgStateSize →
    s.params.scratchAddr32[t]? = some at' → s.params.scratchAddr32[u]? = some au →
    at' < s.params.cfgStateSize → au < s.params.cfgStateSize →
    (⟨bank, at'⟩ : RegAddr) ≠ ⟨sid, ci⟩ → (⟨bank, au⟩ : RegAddr) ≠ ⟨sid, ci⟩ →
    ∃ s₁ s₂, exec (.cfgshiftmask .keep .add 31 0 3 ci) { s with currentThread := t } = .next s₁ ∧
      exec (.cfgshiftmask .keep .add 31 0 3 ci) { s₁ with currentThread := u } = .next s₂ ∧
      (s₂.readConfig ⟨sid, ci⟩).toNat =
        ((s.readConfig ⟨sid, ci⟩).toNat + (s.readConfig ⟨bank, at'⟩).toNat
          + (s.readConfig ⟨bank, au⟩).toNat) % 2 ^ 32

/-- R58, R207: every sequence of moves is a run of the machine: with the moves in its list, the
machine's own steps make exactly them, one a step. The list of moves is the model's (log 1). -/
def Obligations.RunFollowsSchedule : Prop :=
  ∀ (acts later : List Action) (s s' : State),
    runMoves acts { s with sched := later } = .next s' →
    Host.Core.run Sys2Proof.core acts.length ({ s with sched := acts ++ later } : State) = .next s'

/-- R206: in a final state no thread's step and no perform step changes anything. The definition is
decision D31, doing nothing the model's (logs 6, 28). -/
def Obligations.FinalStaysFinal : Prop :=
  ∀ (s : State) (t : Nat), s.Final →
    perform (.threadStep t) s = .next s ∧ perform (.cfgPerform t) s = .next s

/-- Every step keeps the invariant of the state: the bounds of R5 on the parameters, positions inside
the programs (R21), ThreadConfig within its widths (R26), latches of the shape of R33, pending
copies in range (R203), and every register file canonical and inside its geometry. The canonical
form is the model's (log 29). -/
def Obligations.StepKeepsInvariant : Prop :=
  ∀ s s' : State, s.Inv → step s = .next s' → s'.Inv

/-- The invariant holds right after reset, with the model's reset values (logs 2, 3). -/
def Obligations.ResetMeetsInvariant : Prop := State.reset.Inv

/-- R200, R36: the state right after reset is a launch state: every position 0, every state id below
CFG_NUM_STATES, no latch, nothing in flight. The launch premises are decision D25, the state ids log
3, the number of banks log 2. -/
def Obligations.ResetIsLaunch : Prop := State.reset.Launch ∧ State.reset.nthreads ≠ 0
end

