-- ==== Sys2Proof/Laws/Decode.lean ====
section
/-! SUPPORT. The codes of the enumerated fields, and the fields of a word as arithmetic. -/

namespace Sys2Proof

@[simp] theorem MaskMode.ofCode_code (m : MaskMode) : MaskMode.ofCode m.code = m := by cases m <;> rfl
@[simp] theorem AluMode.ofCode_code (m : AluMode) : AluMode.ofCode m.code = m := by cases m <;> rfl
@[simp] theorem SizeSel.ofCode_code (z : SizeSel) : SizeSel.ofCode z.code = z := by cases z <;> rfl
@[simp] theorem TargetSel.ofCode_code (t : TargetSel) : TargetSel.ofCode t.code = t := by cases t <;> rfl
@[simp] theorem CondIndex.ofCode_code (c : CondIndex) : CondIndex.ofCode c.code = c := by cases c <;> rfl

theorem MaskMode.code_lt (m : MaskMode) : m.code < 2 := by cases m <;> decide
theorem AluMode.code_lt (m : AluMode) : m.code < 8 := by cases m <;> decide
theorem SizeSel.code_lt (z : SizeSel) : z.code < 4 := by cases z <;> decide
theorem TargetSel.code_lt (t : TargetSel) : t.code < 4 := by cases t <;> decide
theorem CondIndex.code_lt (c : CondIndex) : c.code < 2 := by cases c <;> decide

theorem MaskMode.code_ofCode {n : Nat} (h : n < 2) : (MaskMode.ofCode n).code = n := by
  interval_cases n <;> rfl
theorem AluMode.code_ofCode {n : Nat} (h : n < 8) : (AluMode.ofCode n).code = n := by
  interval_cases n <;> rfl
theorem SizeSel.code_ofCode {n : Nat} (h : n < 4) : (SizeSel.ofCode n).code = n := by
  interval_cases n <;> rfl
theorem TargetSel.code_ofCode {n : Nat} (h : n < 4) : (TargetSel.ofCode n).code = n := by
  interval_cases n <;> rfl
theorem CondIndex.code_ofCode {n : Nat} (h : n < 2) : (CondIndex.ofCode n).code = n := by
  interval_cases n <;> rfl

/-- A field of a word by division and remainder. -/
theorem bitField_eq (w : Word) (hi lo : Nat) :
    bitField w hi lo = w.toNat / 2 ^ lo % 2 ^ (hi - lo + 1) := by
  rw [bitField, Nat.shiftRight_eq_div_pow]

/-- A macro's word holds its opcode and its parameters without loss (30_encoding.md R71). -/
theorem ttOp_toNat {opcode params : Nat} (ho : opcode < 256) (hp : params < 2 ^ 24) :
    (BitVec.ofNat 32 (ttOp opcode params)).toNat = opcode * 2 ^ 24 + params := by
  rw [ttOp, BitVec.toNat_ofNat, Nat.shiftLeft_eq]
  omega

/-- A well-formed instruction is written by a call that assembles, to its word. -/
theorem assemble_call {i : Instr} (h : i.WellFormed) : assemble i.call = some (encode i) := by
  have hr : i.call.inRange = true := by
    cases i with
    | reg2flop sz tg _ _ _ _ =>
      have h1 := sz.code_lt
      have h2 := tg.code_lt
      simp only [Instr.WellFormed, Instr.wellFormed, Instr.call, MacroCall.inRange, Bool.and_eq_true,
        decide_eq_true_eq] at h ⊢
      omega
    | streamwait sr _ ts ws =>
      have h1 := ts.code_lt
      have h2 := sr.isLt
      have h3 := ws.isLt
      simp only [Instr.WellFormed, Instr.wellFormed, Instr.call, MacroCall.inRange, Bool.and_eq_true,
        decide_eq_true_eq] at h ⊢
      omega
    | streamwrcfg sel _ _ =>
      have h1 := sel.isLt
      simp only [Instr.WellFormed, Instr.wellFormed, Instr.call, MacroCall.inRange, Bool.and_eq_true,
        decide_eq_true_eq] at h ⊢
      omega
    | cfgshiftmask mm am _ _ _ _ =>
      have h1 := mm.code_lt
      have h2 := am.code_lt
      simp only [Instr.WellFormed, Instr.wellFormed, Instr.call, MacroCall.inRange, Bool.and_eq_true,
        decide_eq_true_eq] at h ⊢
      omega
  rw [assemble, if_pos hr, encode]

end Sys2Proof
end

