-- ==== Sys2Proof/Laws/RegFile.lean ====
section
/-! SUPPORT. The laws of a register file: what a read after a write gives, that a write keeps the
canonical form and the range, and that canonical files with equal reads are equal. -/

namespace Sys2Proof.Machine

theorem RegAddr.lt_iff {a b : RegAddr} :
    a.lt b = true ↔ a.bank < b.bank ∨ (a.bank = b.bank ∧ a.index < b.index) := by
  simp [RegAddr.lt]

theorem RegAddr.ext_iff' {a b : RegAddr} : a = b ↔ a.bank = b.bank ∧ a.index = b.index := by
  cases a; cases b; simp

theorem RegAddr.lt_irrefl (a : RegAddr) : a.lt a = false := by
  simp [RegAddr.lt]

theorem RegAddr.lt_trans {a b c : RegAddr} (h₁ : a.lt b = true) (h₂ : b.lt c = true) :
    a.lt c = true := by
  rw [RegAddr.lt_iff] at *; omega

theorem RegAddr.lt_of_not_lt {a b : RegAddr} (h : ¬ a.lt b = true) (hne : b ≠ a) :
    b.lt a = true := by
  rw [Ne, RegAddr.ext_iff'] at hne; rw [RegAddr.lt_iff] at *; omega

@[simp] theorem RegFile.read_nil (a : RegAddr) : RegFile.read [] a = 0 := rfl

theorem RegFile.read_cons (b : RegAddr) (u : Word) (f : RegFile) (a : RegAddr) :
    RegFile.read ((b, u) :: f) a = if a = b then u else RegFile.read f a := rfl

/-- A register that is not listed holds 0. -/
theorem RegFile.read_of_not_listed {f : RegFile} {a : RegAddr} (h : ∀ e ∈ f, e.1 ≠ a) :
    f.read a = 0 := by
  induction f with
  | nil => rfl
  | cons e f ih =>
    obtain ⟨b, u⟩ := e
    have hb : a ≠ b := fun hab => h (b, u) (List.mem_cons_self ..) hab.symm
    rw [RegFile.read_cons, if_neg hb, ih fun e he => h e (List.mem_cons_of_mem _ he)]

theorem RegFile.mem_clear {f : RegFile} {a : RegAddr} {e : RegAddr × Word} :
    e ∈ f.clear a ↔ e ∈ f ∧ e.1 ≠ a := by
  simp [RegFile.clear]

theorem RegFile.read_clear_self (f : RegFile) (a : RegAddr) : (f.clear a).read a = 0 :=
  RegFile.read_of_not_listed fun _ he => (RegFile.mem_clear.mp he).2

theorem RegFile.read_clear_ne {a b : RegAddr} (h : b ≠ a) (f : RegFile) :
    (f.clear a).read b = f.read b := by
  induction f with
  | nil => rfl
  | cons e f ih =>
    obtain ⟨c, u⟩ := e
    by_cases hc : c = a
    · subst hc
      rw [RegFile.read_cons, if_neg h, ← ih]
      simp [RegFile.clear]
    · rw [RegFile.read_cons, ← ih]
      simp [RegFile.clear, hc, RegFile.read_cons]

theorem RegFile.read_place_self {f : RegFile} {a : RegAddr} (v : Word) (h : ∀ e ∈ f, e.1 ≠ a) :
    (f.place a v).read a = v := by
  induction f with
  | nil => simp [RegFile.place, RegFile.read_cons]
  | cons e f ih =>
    obtain ⟨b, u⟩ := e
    have hb : a ≠ b := fun hab => h (b, u) (List.mem_cons_self ..) hab.symm
    rw [RegFile.place]
    split
    · simp [RegFile.read_cons]
    · rw [RegFile.read_cons, if_neg hb, ih fun e he => h e (List.mem_cons_of_mem _ he)]

theorem RegFile.read_place_ne {a b : RegAddr} (h : b ≠ a) (f : RegFile) (v : Word) :
    (f.place a v).read b = f.read b := by
  induction f with
  | nil => simp [RegFile.place, RegFile.read_cons, h]
  | cons e f ih =>
    obtain ⟨c, u⟩ := e
    rw [RegFile.place]
    split
    · rw [RegFile.read_cons, if_neg h]
    · rw [RegFile.read_cons, RegFile.read_cons, ih]

/-- A read after a write to the same register gives the value written. -/
@[simp] theorem RegFile.read_write_self (f : RegFile) (a : RegAddr) (v : Word) :
    (f.write a v).read a = v := by
  rw [RegFile.write]
  split
  · next h => rw [RegFile.read_clear_self, h]
  · exact RegFile.read_place_self v fun _ he => (RegFile.mem_clear.mp he).2

/-- A write leaves every other register alone. -/
theorem RegFile.read_write_ne {a b : RegAddr} (h : b ≠ a) (f : RegFile) (v : Word) :
    (f.write a v).read b = f.read b := by
  rw [RegFile.write]
  split
  · exact RegFile.read_clear_ne h f
  · rw [RegFile.read_place_ne h, RegFile.read_clear_ne h]

theorem RegFile.read_write (f : RegFile) (a b : RegAddr) (v : Word) :
    (f.write a v).read b = if b = a then v else f.read b := by
  split
  · next h => rw [h, RegFile.read_write_self]
  · next h => exact RegFile.read_write_ne h f v

theorem RegFile.mem_place {f : RegFile} {a : RegAddr} {v : Word} {e : RegAddr × Word} :
    e ∈ f.place a v ↔ e = (a, v) ∨ e ∈ f := by
  induction f with
  | nil => simp [RegFile.place]
  | cons c f ih =>
    obtain ⟨b, u⟩ := c
    rw [RegFile.place]
    split
    · simp
    · rw [List.mem_cons, ih, List.mem_cons]; tauto

theorem RegFile.place_sorted {f : RegFile} {a : RegAddr} {v : Word}
    (hf : f.Pairwise (fun x y => x.1.lt y.1 = true)) (hne : ∀ e ∈ f, e.1 ≠ a) :
    (f.place a v).Pairwise (fun x y => x.1.lt y.1 = true) := by
  induction f with
  | nil => simp [RegFile.place]
  | cons c f ih =>
    obtain ⟨b, u⟩ := c
    rw [List.pairwise_cons] at hf
    rw [RegFile.place]
    split
    · next hab =>
      refine List.pairwise_cons.mpr ⟨fun e he => ?_, List.pairwise_cons.mpr hf⟩
      rcases List.mem_cons.mp he with rfl | he
      · exact hab
      · exact RegAddr.lt_trans hab (hf.1 e he)
    · next hab =>
      refine List.pairwise_cons.mpr
        ⟨fun e he => ?_, ih hf.2 fun e he => hne e (List.mem_cons_of_mem _ he)⟩
      rcases RegFile.mem_place.mp he with rfl | he
      · exact RegAddr.lt_of_not_lt hab (hne (b, u) (List.mem_cons_self ..))
      · exact hf.1 e he

/-- A write keeps the canonical form. -/
theorem RegFile.write_canonical {f : RegFile} (hf : f.Canonical) (a : RegAddr) (v : Word) :
    (f.write a v).Canonical := by
  have hs : (f.clear a).Pairwise (fun x y => x.1.lt y.1 = true) := hf.1.filter _
  have hz : ∀ e ∈ f.clear a, e.2 ≠ 0 := fun e he => hf.2 e (RegFile.mem_clear.mp he).1
  rw [RegFile.write]
  split
  · exact ⟨hs, hz⟩
  · next hv =>
    refine ⟨RegFile.place_sorted hs fun e he => (RegFile.mem_clear.mp he).2, fun e he => ?_⟩
    rcases RegFile.mem_place.mp he with rfl | he
    · exact hv
    · exact hz e he

/-- A write of a register that exists lists only registers that exist. -/
theorem RegFile.write_within {f : RegFile} {banks size : Nat} (hf : f.Within banks size)
    {a : RegAddr} (ha : a.bank < banks ∧ a.index < size) (v : Word) :
    (f.write a v).Within banks size := by
  intro e he
  rw [RegFile.write] at he
  split at he
  · exact hf e (RegFile.mem_clear.mp he).1
  · rcases RegFile.mem_place.mp he with rfl | he
    · exact ha
    · exact hf e (RegFile.mem_clear.mp he).1

theorem RegFile.canonical_tail {e : RegAddr × Word} {f : RegFile}
    (h : RegFile.Canonical (e :: f)) : RegFile.Canonical f :=
  ⟨(List.pairwise_cons.mp h.1).2, fun x hx => h.2 x (List.mem_cons_of_mem _ hx)⟩

/-- The first register listed is the least that does not hold 0. -/
theorem RegFile.read_below_head {b : RegAddr} {u : Word} {f : RegFile}
    (h : RegFile.Canonical ((b, u) :: f)) {a : RegAddr} (ha : a.lt b = true) :
    RegFile.read ((b, u) :: f) a = 0 := by
  refine RegFile.read_of_not_listed fun e he hea => ?_
  rcases List.mem_cons.mp he with rfl | he
  · have hba : b = a := hea
    rw [hba, RegAddr.lt_irrefl] at ha; exact Bool.noConfusion ha
  · have := RegAddr.lt_trans ha ((List.pairwise_cons.mp h.1).1 e he)
    rw [hea, RegAddr.lt_irrefl] at this; exact Bool.noConfusion this

theorem RegFile.read_head_of_tail {b : RegAddr} {u : Word} {f : RegFile}
    (h : RegFile.Canonical ((b, u) :: f)) : RegFile.read f b = 0 := by
  refine RegFile.read_of_not_listed fun e he hea => ?_
  have := (List.pairwise_cons.mp h.1).1 e he
  rw [hea, RegAddr.lt_irrefl] at this; exact Bool.noConfusion this

/-- Canonical files with equal reads are equal. -/
theorem RegFile.canonical_ext {f g : RegFile} (hf : f.Canonical) (hg : g.Canonical)
    (h : ∀ a, f.read a = g.read a) : f = g := by
  induction f generalizing g with
  | nil =>
    cases g with
    | nil => rfl
    | cons e g =>
      obtain ⟨b, u⟩ := e
      have := h b
      rw [RegFile.read_nil, RegFile.read_cons, if_pos rfl] at this
      exact absurd this.symm (hg.2 (b, u) (List.mem_cons_self ..))
  | cons e f ih =>
    obtain ⟨b, u⟩ := e
    have hu : u ≠ 0 := hf.2 (b, u) (List.mem_cons_self ..)
    cases g with
    | nil =>
      have := h b
      rw [RegFile.read_nil, RegFile.read_cons, if_pos rfl] at this
      exact absurd this hu
    | cons e' g =>
      obtain ⟨c, w⟩ := e'
      have hw : w ≠ 0 := hg.2 (c, w) (List.mem_cons_self ..)
      have hbc : b = c := by
        by_contra hne
        by_cases hlt : b.lt c = true
        · have := h b
          rw [RegFile.read_below_head hg hlt, RegFile.read_cons, if_pos rfl] at this
          exact hu this
        · have hlt' := RegAddr.lt_of_not_lt hlt (Ne.symm hne)
          have := h c
          rw [RegFile.read_below_head hf hlt', RegFile.read_cons, if_pos rfl] at this
          exact hw this.symm
      subst hbc
      have huw : u = w := by
        have := h b
        rwa [RegFile.read_cons, if_pos rfl, RegFile.read_cons, if_pos rfl] at this
      subst huw
      have hfg : f = g := by
        refine ih (RegFile.canonical_tail hf) (RegFile.canonical_tail hg) fun a => ?_
        by_cases hab : a = b
        · rw [hab, RegFile.read_head_of_tail hf, RegFile.read_head_of_tail hg]
        · have := h a
          rwa [RegFile.read_cons, if_neg hab, RegFile.read_cons, if_neg hab] at this
      rw [hfg]

/-- Writes of two different registers commute on a canonical file. -/
theorem RegFile.write_comm {f : RegFile} (hf : f.Canonical) {a b : RegAddr} (hab : a ≠ b)
    (v w : Word) : (f.write a v).write b w = (f.write b w).write a v := by
  refine RegFile.canonical_ext (RegFile.write_canonical (RegFile.write_canonical hf _ _) _ _)
    (RegFile.write_canonical (RegFile.write_canonical hf _ _) _ _) fun c => ?_
  simp only [RegFile.read_write]
  by_cases hca : c = a
  · simp [hca, hab]
  · simp [hca]

/-- The second of two writes of one register is the one that counts. -/
theorem RegFile.write_write {f : RegFile} (hf : f.Canonical) (a : RegAddr) (v w : Word) :
    (f.write a v).write a w = f.write a w := by
  refine RegFile.canonical_ext (RegFile.write_canonical (RegFile.write_canonical hf _ _) _ _)
    (RegFile.write_canonical hf _ _) fun c => ?_
  simp only [RegFile.read_write]
  split <;> rfl

end Sys2Proof.Machine
end

