-- ==== Sys2Proof/Laws/State.lean ====
section
/-! SUPPORT. One lemma per field per update of the state, so that no proof unfolds a record
update. -/

namespace Sys2Proof.Machine

section setThread
variable (s : State) (t : Nat) (th : Thread)

@[simp] theorem setThread_params : (s.setThread t th).params = s.params := rfl
@[simp] theorem setThread_sched : (s.setThread t th).sched = s.sched := rfl
@[simp] theorem setThread_tick : (s.setThread t th).tick = s.tick := rfl
@[simp] theorem setThread_currentThread : (s.setThread t th).currentThread = s.currentThread := rfl
@[simp] theorem setThread_threads : (s.setThread t th).threads = s.threads.set t th := rfl
@[simp] theorem setThread_tdma : (s.setThread t th).tdma = s.tdma := rfl
@[simp] theorem setThread_config : (s.setThread t th).config = s.config := rfl
@[simp] theorem setThread_flops : (s.setThread t th).flops = s.flops := rfl
@[simp] theorem setThread_streams : (s.setThread t th).streams = s.streams := rfl
@[simp] theorem setThread_nthreads : (s.setThread t th).nthreads = s.nthreads := by
  simp [State.nthreads]

/-- Writing a thread's record leaves every other thread's alone. -/
theorem setThread_thread?_ne {u : Nat} (h : u ≠ t) : (s.setThread t th).thread? u = s.thread? u := by
  simp [State.thread?, List.getElem?_set_ne (Ne.symm h)]

/-- A thread's record, once written, is read back. -/
theorem setThread_thread?_self {old : Thread} (h : s.thread? t = some old) :
    (s.setThread t th).thread? t = some th := by
  have hlt : t < s.threads.length := (List.getElem?_eq_some_iff.mp h).1
  simp [State.thread?, hlt]

end setThread

section writes
variable (s : State) (a : RegAddr) (v : Word)

@[simp] theorem writeConfig_params : (s.writeConfig a v).params = s.params := rfl
@[simp] theorem writeConfig_sched : (s.writeConfig a v).sched = s.sched := rfl
@[simp] theorem writeConfig_tick : (s.writeConfig a v).tick = s.tick := rfl
@[simp] theorem writeConfig_currentThread : (s.writeConfig a v).currentThread = s.currentThread := rfl
@[simp] theorem writeConfig_threads : (s.writeConfig a v).threads = s.threads := rfl
@[simp] theorem writeConfig_tdma : (s.writeConfig a v).tdma = s.tdma := rfl
@[simp] theorem writeConfig_config : (s.writeConfig a v).config = s.config.write a v := rfl
@[simp] theorem writeConfig_flops : (s.writeConfig a v).flops = s.flops := rfl
@[simp] theorem writeConfig_streams : (s.writeConfig a v).streams = s.streams := rfl
@[simp] theorem writeConfig_nthreads : (s.writeConfig a v).nthreads = s.nthreads := rfl
@[simp] theorem writeConfig_thread? (t : Nat) : (s.writeConfig a v).thread? t = s.thread? t := rfl

@[simp] theorem writeFlop_params : (s.writeFlop a v).params = s.params := rfl
@[simp] theorem writeFlop_sched : (s.writeFlop a v).sched = s.sched := rfl
@[simp] theorem writeFlop_tick : (s.writeFlop a v).tick = s.tick := rfl
@[simp] theorem writeFlop_currentThread : (s.writeFlop a v).currentThread = s.currentThread := rfl
@[simp] theorem writeFlop_threads : (s.writeFlop a v).threads = s.threads := rfl
@[simp] theorem writeFlop_tdma : (s.writeFlop a v).tdma = s.tdma := rfl
@[simp] theorem writeFlop_config : (s.writeFlop a v).config = s.config := rfl
@[simp] theorem writeFlop_flops : (s.writeFlop a v).flops = s.flops.write a v := rfl
@[simp] theorem writeFlop_streams : (s.writeFlop a v).streams = s.streams := rfl
@[simp] theorem writeFlop_nthreads : (s.writeFlop a v).nthreads = s.nthreads := rfl
@[simp] theorem writeFlop_thread? (t : Nat) : (s.writeFlop a v).thread? t = s.thread? t := rfl

@[simp] theorem writeStream_params : (s.writeStream a v).params = s.params := rfl
@[simp] theorem writeStream_sched : (s.writeStream a v).sched = s.sched := rfl
@[simp] theorem writeStream_tick : (s.writeStream a v).tick = s.tick := rfl
@[simp] theorem writeStream_currentThread : (s.writeStream a v).currentThread = s.currentThread := rfl
@[simp] theorem writeStream_threads : (s.writeStream a v).threads = s.threads := rfl
@[simp] theorem writeStream_tdma : (s.writeStream a v).tdma = s.tdma := rfl
@[simp] theorem writeStream_config : (s.writeStream a v).config = s.config := rfl
@[simp] theorem writeStream_flops : (s.writeStream a v).flops = s.flops := rfl
@[simp] theorem writeStream_streams : (s.writeStream a v).streams = s.streams.write a v := rfl
@[simp] theorem writeStream_nthreads : (s.writeStream a v).nthreads = s.nthreads := rfl
@[simp] theorem writeStream_thread? (t : Nat) : (s.writeStream a v).thread? t = s.thread? t := rfl

end writes

section retire
variable (s : State) (th : Thread) (mark : Option RegAddr)

@[simp] theorem retire_params : (s.retire th mark).params = s.params := rfl
@[simp] theorem retire_sched : (s.retire th mark).sched = s.sched := rfl
@[simp] theorem retire_tick : (s.retire th mark).tick = s.tick := rfl
@[simp] theorem retire_currentThread : (s.retire th mark).currentThread = s.currentThread := rfl
@[simp] theorem retire_threads : (s.retire th mark).threads =
    s.threads.set s.currentThread { th with pc := th.pc + 1, lastWasCfgShiftMask := mark } := rfl
@[simp] theorem retire_tdma : (s.retire th mark).tdma = s.tdma := rfl
@[simp] theorem retire_config : (s.retire th mark).config = s.config := rfl
@[simp] theorem retire_flops : (s.retire th mark).flops = s.flops := rfl
@[simp] theorem retire_streams : (s.retire th mark).streams = s.streams := rfl
@[simp] theorem retire_nthreads : (s.retire th mark).nthreads = s.nthreads := setThread_nthreads ..

/-- The issuing thread's record after its instruction. -/
theorem retire_thread?_self {old : Thread} (h : s.thread? s.currentThread = some old) :
    (s.retire th mark).thread? s.currentThread =
      some { th with pc := th.pc + 1, lastWasCfgShiftMask := mark } :=
  setThread_thread?_self _ _ _ h

/-- Every other thread's record is as it was. -/
theorem retire_thread?_ne {u : Nat} (h : u ≠ s.currentThread) :
    (s.retire th mark).thread? u = s.thread? u :=
  setThread_thread?_ne _ _ _ h

end retire

end Sys2Proof.Machine
end

