-- ==== Sys2Proof/Laws/Exec.lean ====
section
/-! SUPPORT. One inversion lemma per meaning: if it answers a next state, then the ranges hold and
the next state is the one named. Later proofs cite these instead of unfolding a meaning. -/

namespace Sys2Proof.Machine

theorem scratchAddr?_eq_some {p : Params} {cur k a : Nat} :
    scratchAddr? p cur k = some a ↔
      p.scratchAddr32[scratchEntry cur k]? = some a ∧ a < p.cfgStateSize := by
  unfold scratchAddr?
  split
  · next b hb =>
    by_cases h : b < p.cfgStateSize
    · simp only [h, if_true, hb, Option.some.injEq]
      exact ⟨fun hab => ⟨hab, hab ▸ h⟩, fun hab => hab.1⟩
    · simp only [h, if_false, hb, Option.some.injEq, reduceCtorEq, false_iff]
      rintro ⟨rfl, h'⟩; exact h h'
  · next hb => simp [hb]

/-- CFGSHIFTMASK completes exactly on in-range operands, with this next state. -/
theorem execCfgshiftmask_next_iff {mm : MaskMode} {am : AluMode} {mw rot si ci : Nat}
    {s t : State} :
    execCfgshiftmask mm am mw rot si ci s = .next t ↔
      ∃ th a, s.thread? s.currentThread = some th ∧ th.tcfg.stateId < s.params.cfgNumStates ∧
        scratchBankOf s.params th.tcfg.stateId < s.params.cfgNumStates ∧
        ci < s.params.cfgStateSize ∧ scratchAddr? s.params s.currentThread si = some a ∧
        t = (s.writeConfig ⟨th.tcfg.stateId, ci⟩
          (cfgshiftmaskResult mm am mw rot
            (s.readConfig ⟨scratchBankOf s.params th.tcfg.stateId, a⟩)
            (s.readConfig ⟨th.tcfg.stateId, ci⟩))).retire th (some ⟨th.tcfg.stateId, ci⟩) := by
  unfold execCfgshiftmask
  cases hth : s.thread? s.currentThread with
  | none => simp
  | some th =>
    by_cases hst : s.params.cfgNumStates ≤ th.tcfg.stateId ∨
        s.params.cfgNumStates ≤ scratchBankOf s.params th.tcfg.stateId
    · simp only [hst, if_true, reduceCtorEq, Option.some.injEq, false_iff, not_exists]
      rintro th' a ⟨rfl, h1, h2, -⟩; omega
    by_cases hci : s.params.cfgStateSize ≤ ci
    · simp only [hst, hci, if_true, if_false, reduceCtorEq, Option.some.injEq, false_iff, not_exists]
      rintro th' a ⟨-, -, -, h3, -⟩; omega
    cases ha : scratchAddr? s.params s.currentThread si with
    | none => simp [hst, hci]
    | some a =>
      simp only [hst, hci, if_false, Option.some.injEq, Host.Outcome.next.injEq]
      constructor
      · rintro rfl; exact ⟨th, a, rfl, by omega, by omega, by omega, rfl, rfl⟩
      · rintro ⟨_, _, rfl, -, -, -, rfl, rfl⟩; rfl

/-- STREAMWRCFG completes exactly on in-range operands, with this next state. -/
theorem execStreamwrcfg_next_iff {sel : Fin 4} {ra cr : Nat} {s t : State} :
    execStreamwrcfg sel ra cr s = .next t ↔
      ∃ th, s.thread? s.currentThread = some th ∧ th.tcfg.bankSel[sel] < s.params.nstreams ∧
        ra < s.params.nstreamregs ∧ th.tcfg.stateId < s.params.cfgNumStates ∧
        cr < s.params.cfgStateSize ∧
        t = s.retire { th with pendingStreamWrCfg := th.pendingStreamWrCfg ++
          [⟨⟨th.tcfg.bankSel[sel], ra⟩, ⟨th.tcfg.stateId, cr⟩⟩] } none := by
  unfold execStreamwrcfg
  cases hth : s.thread? s.currentThread with
  | none => simp
  | some th =>
    by_cases h1 : s.params.nstreams ≤ th.tcfg.bankSel[sel] ∨ s.params.nstreamregs ≤ ra
    · simp only [h1, if_true, reduceCtorEq, Option.some.injEq, false_iff, not_exists]
      rintro th' ⟨rfl, h, h', -⟩; omega
    by_cases h2 : s.params.cfgNumStates ≤ th.tcfg.stateId
    · simp only [h1, h2, if_true, if_false, reduceCtorEq, Option.some.injEq, false_iff, not_exists]
      rintro th' ⟨rfl, -, -, h, -⟩; omega
    by_cases h3 : s.params.cfgStateSize ≤ cr
    · simp only [h1, h2, h3, if_true, if_false, reduceCtorEq, Option.some.injEq, false_iff, not_exists]
      rintro th' ⟨-, -, -, -, h, -⟩; omega
    simp only [h1, h2, h3, if_false, Option.some.injEq, Host.Outcome.next.injEq]
    constructor
    · rintro rfl; exact ⟨th, rfl, by omega, by omega, by omega, by omega, rfl⟩
    · rintro ⟨_, rfl, -, -, -, -, rfl⟩; rfl

/-- STREAMWAIT completes on every thread, with this next state. -/
theorem execStreamwait_next_iff {sr : BlockMask} {tv : Nat} {ts : CondIndex} {ws : Fin 4}
    {s t : State} :
    execStreamwait sr tv ts ws s = .next t ↔
      ∃ th, s.thread? s.currentThread = some th ∧
        t = s.retire { th with gate := some (streamwaitLatch th.tcfg sr tv ts ws) } none := by
  unfold execStreamwait
  cases hth : s.thread? s.currentThread with
  | none => simp
  | some th => simp [eq_comm]

/-- What a REG2FLOP writes before the thread goes on. -/
def reg2flopMove (sz : SizeSel) (bank bo f r : Nat) (s : State) : State :=
  match sz with
  | .bits32 => moveBits32 ⟨bank, f⟩ (s.readTdma r) s
  | .bits16 => moveBits16 ⟨bank, f⟩ bo (s.readTdma r) s
  | .bits8 => moveBits8 ⟨bank, f⟩ bo (s.readTdma r) s
  | .bytes16 => moveBytes16 bank f r s

/-- The ranges a REG2FLOP needs. -/
def Reg2flopInRange (p : Params) (sz : SizeSel) (bo f r : Nat) : Prop :=
  match sz with
  | .bits32 => f < p.nflop ∧ r < p.ngpr
  | .bits16 => bo < 2 ∧ f < p.nflop ∧ r < p.ngpr
  | .bits8 => f < p.nflop ∧ r < p.ngpr
  | .bytes16 => f + 3 < p.nflop ∧ f + 3 ≤ 1023 ∧ tdmaGroup r + 3 < p.ngpr

/-- REG2FLOP completes exactly on a bank and operands in range, with this next state. -/
theorem execReg2flop_next_iff {sz : SizeSel} {tg : TargetSel} {bo cx f r : Nat} {s t : State} :
    execReg2flop sz tg bo cx f r s = .next t ↔
      ∃ th b, s.thread? s.currentThread = some th ∧ flopBank? s.params tg = some b ∧
        Reg2flopInRange s.params sz bo f r ∧ t = (reg2flopMove sz b bo f r s).retire th none := by
  unfold execReg2flop
  cases hth : s.thread? s.currentThread with
  | none => simp
  | some th =>
    cases hb : flopBank? s.params tg with
    | none => simp
    | some b =>
      simp only [Option.some.injEq]
      cases sz <;> simp only [Reg2flopInRange, reg2flopMove]
      all_goals
        repeat' split
        all_goals
          simp only [reduceCtorEq, Host.Outcome.next.injEq, false_iff, not_exists]
          first
          | (rintro th' b' ⟨-, -, h, -⟩; omega)
          | (constructor
             · rintro rfl; exact ⟨th, b, rfl, rfl, by omega, rfl⟩
             · rintro ⟨_, _, rfl, rfl, -, rfl⟩; rfl)

/-- A REG2FLOP's writes reach the flops alone. -/
theorem reg2flopMove_eq (sz : SizeSel) (b bo f r : Nat) (s : State) :
    reg2flopMove sz b bo f r s = { s with flops := (reg2flopMove sz b bo f r s).flops } := by
  cases sz <;> rfl

/-- What an instruction that completes does, whichever of the four it is: it moves the issuing
thread on by one, and leaves its program and ThreadConfig, the other threads, the TDMA registers
and the stream registers alone. -/
theorem exec_next {i : Instr} {s t : State} (h : exec i s = .next t) :
    ∃ th th', s.thread? s.currentThread = some th ∧
      t.threads = s.threads.set s.currentThread th' ∧
      th'.prog = th.prog ∧ th'.pc = th.pc + 1 ∧ th'.tcfg = th.tcfg ∧
      t.params = s.params ∧ t.sched = s.sched ∧ t.tick = s.tick ∧
      t.currentThread = s.currentThread ∧ t.tdma = s.tdma ∧ t.streams = s.streams := by
  cases i with
  | reg2flop sz tg bo cx f r =>
    obtain ⟨th, b, hth, -, -, rfl⟩ := (execReg2flop_next_iff (cx := cx)).mp h
    rw [reg2flopMove_eq]
    exact ⟨th, _, hth, rfl, rfl, rfl, rfl, rfl, rfl, rfl, rfl, rfl, rfl⟩
  | streamwait sr tv ts ws =>
    obtain ⟨th, hth, rfl⟩ := execStreamwait_next_iff.mp h
    exact ⟨th, _, hth, rfl, rfl, rfl, rfl, rfl, rfl, rfl, rfl, rfl, rfl⟩
  | streamwrcfg sel ra cr =>
    obtain ⟨th, hth, -, -, -, -, rfl⟩ := execStreamwrcfg_next_iff.mp h
    exact ⟨th, _, hth, rfl, rfl, rfl, rfl, rfl, rfl, rfl, rfl, rfl, rfl⟩
  | cfgshiftmask mm am mw rot si ci =>
    obtain ⟨th, a, hth, -, -, -, -, rfl⟩ := execCfgshiftmask_next_iff.mp h
    exact ⟨th, _, hth, rfl, rfl, rfl, rfl, rfl, rfl, rfl, rfl, rfl, rfl⟩

end Sys2Proof.Machine
end

