-- ==== Sys2Proof/Laws/Issue.lean ====
section
/-! SUPPORT. What each move of the machine can do, said once per move. -/

namespace Sys2Proof.Machine

/-- No instruction in scope consumes a Config value outside the Configuration Unit
(70_reset_and_hazards.md R202). -/
@[simp] theorem cfgHazard_eq_false (th : Thread) (i : Instr) : cfgHazard th i = false := by
  unfold cfgHazard
  split
  · rfl
  · cases i <;> rfl

@[simp] theorem runUnlessHazard_eq (th : Thread) (i : Instr) (s : State) :
    runUnlessHazard th i s = exec i s := by
  simp [runUnlessHazard]

/-- Dropping a met latch keeps everything but thread `t`'s latch. -/
theorem clearMetLatch_eq (t : Nat) (th : Thread) (s : State) :
    clearMetLatch t th s =
      if s.params.latchClears = .always then s.setThread t { th with gate := none } else s := by
  unfold clearMetLatch
  cases s.params.latchClears <;> simp

/-- The state an attempt that is not held executes in: the current thread is `t`, and its record is
as it was but for a latch dropped under `always`. -/
theorem issue_runs {t : Nat} {th : Thread} {i : Instr} {s : State} (hth : s.thread? t = some th) :
    issue t th i s = .refused .streamIndexOutOfRange ∨ issue t th i s = .next s ∨
      ∃ g, (g = th.gate ∨ g = none) ∧
        issue t th i s = exec i { s with
          currentThread := t, threads := s.threads.set t { th with gate := g } } := by
  have hself : s.threads.set t th = s.threads := by
    obtain ⟨hlt, rfl⟩ := List.getElem?_eq_some_iff.mp hth
    exact List.set_getElem_self hlt
  have hkeep : ({ s with currentThread := t } : State) = { s with
      currentThread := t, threads := s.threads.set t { th with gate := th.gate } } := by
    rw [hself]
  unfold issue
  cases gateVerdict s.params s.streams th i with
  | streamOutOfRange => exact .inl rfl
  | hold => exact .inr (.inl rfl)
  | notBlocked =>
    refine .inr (.inr ⟨th.gate, .inl rfl, ?_⟩)
    rw [← hkeep]; simp
  | met =>
    refine .inr (.inr ?_)
    simp only [runUnlessHazard_eq, clearMetLatch_eq]
    split
    · exact ⟨none, .inr rfl, rfl⟩
    · exact ⟨th.gate, .inl rfl, by rw [← hkeep]⟩

/-- What a thread's step can answer: a stutter (not enabled, or held), a refusal of the decoder or
of the gate, or exec of the instruction decoded. -/
theorem threadStep_cases (t : Nat) (s : State) :
    threadStep t s = .next s ∨
    (∃ e, threadStep t s = .refused (refusalOf e)) ∨
    threadStep t s = .refused .streamIndexOutOfRange ∨
    ∃ th w i g, s.thread? t = some th ∧ th.prog[th.pc]? = some w ∧ decode w = .instr i ∧
      gateVerdict s.params s.streams th i ≠ .hold ∧ (g = th.gate ∨ g = none) ∧
      threadStep t s = exec i { s with
        currentThread := t, threads := s.threads.set t { th with gate := g } } := by
  unfold threadStep
  cases hth : s.thread? t with
  | none => exact .inl rfl
  | some th =>
    cases hw : th.prog[th.pc]? with
    | none => exact .inl (by simp only [hw])
    | some w =>
      simp only [hw]
      cases hd : decode w with
      | refused e => exact .inr (.inl ⟨e, rfl⟩)
      | instr i =>
        by_cases hv : gateVerdict s.params s.streams th i = .hold
        · exact .inl (by simp [issue, hv])
        rcases issue_runs (i := i) hth with h | h | ⟨g, hg, h⟩
        · exact .inr (.inr (.inl h))
        · exact .inl h
        · exact .inr (.inr (.inr ⟨th, w, i, g, rfl, hw, hd, hv, hg, h⟩))

/-- What the perform step does, for each thread. -/
theorem cfgPerform_cases (t : Nat) (s : State) :
    cfgPerform t s = s ∨
    ∃ th c rest, s.thread? t = some th ∧ th.pendingStreamWrCfg = c :: rest ∧
      cfgPerform t s = (s.writeConfig c.target (s.readStream c.source)).setThread t
        { th with pendingStreamWrCfg := rest } := by
  unfold cfgPerform
  cases hth : s.thread? t with
  | none => exact .inl rfl
  | some th =>
    cases hp : th.pendingStreamWrCfg with
    | nil => exact .inl (by simp only [hp])
    | cons c rest => exact .inr ⟨th, c, rest, rfl, hp, by simp only [hp]⟩

/-- What the gate's release does, for each thread. -/
theorem gateRelease_cases (t : Nat) (s : State) :
    gateRelease t s = s ∨
    ∃ th, s.thread? t = some th ∧ gateReleasable s th = true ∧
      gateRelease t s = s.setThread t { th with gate := none } := by
  unfold gateRelease
  cases hth : s.thread? t with
  | none => exact .inl rfl
  | some th =>
    cases hr : gateReleasable s th with
    | false => exact .inl (by simp [hr])
    | true => exact .inr ⟨th, rfl, hr, by simp [hr]⟩

/-- What the environment's step does. -/
theorem envStep_cases (stream reg : Nat) (v : Word) (s : State) :
    envStep stream reg v s = s ∨
    (stream < s.params.nstreams ∧ reg < s.params.nstreamregs ∧
      envStep stream reg v s = s.writeStream ⟨stream, reg⟩ v) := by
  unfold envStep
  split
  · next h => exact .inr ⟨h.1, h.2, rfl⟩
  · exact .inl rfl

/-- Using up a move changes the list of moves and the counter alone. -/
theorem dropAction_eq (s : State) :
    dropAction s = { s with sched := (dropAction s).sched, tick := (dropAction s).tick } := by
  unfold dropAction; cases s.sched <;> rfl

@[simp] theorem dropAction_params (s : State) : (dropAction s).params = s.params := by
  rw [dropAction_eq]
@[simp] theorem dropAction_currentThread (s : State) :
    (dropAction s).currentThread = s.currentThread := by rw [dropAction_eq]
@[simp] theorem dropAction_threads (s : State) : (dropAction s).threads = s.threads := by
  rw [dropAction_eq]
@[simp] theorem dropAction_tdma (s : State) : (dropAction s).tdma = s.tdma := by rw [dropAction_eq]
@[simp] theorem dropAction_config (s : State) : (dropAction s).config = s.config := by
  rw [dropAction_eq]
@[simp] theorem dropAction_flops (s : State) : (dropAction s).flops = s.flops := by
  rw [dropAction_eq]
@[simp] theorem dropAction_streams (s : State) : (dropAction s).streams = s.streams := by
  rw [dropAction_eq]

end Sys2Proof.Machine
end

