-- ==== Sys2Proof/Laws/Operands.lean ====
section
/-! SUPPORT. The bit-level helpers, related to the library's operations on bit vectors, so that no
later proof unfolds them. -/

namespace Sys2Proof.Machine

/-- The source's formula is the library's rotation to the right. -/
theorem rotr32_eq_rotateRight (v : Word) (a : Nat) : rotr32 v a = v.rotateRight a := by
  have hr : a % 32 < 32 := Nat.mod_lt _ (by decide)
  rw [BitVec.rotateRight_def, rotr32]
  apply BitVec.eq_of_getLsbD_eq
  intro i hi
  simp only [BitVec.getLsbD_ofNat, BitVec.getLsbD_or, Nat.testBit_or, BitVec.getLsbD_ushiftRight,
    BitVec.getLsbD_shiftLeft, Nat.testBit_shiftRight, Nat.testBit_shiftLeft, hi, decide_true,
    Bool.true_and, BitVec.testBit_toNat]
  by_cases hlt : i < 32 - a % 32
  · simp [hlt, Nat.not_le.mpr hlt]
  · simp [hlt, Nat.not_lt.mp hlt]

/-- The mask as a shifted word of ones. -/
theorem maskVal_toNat {mw : Nat} (h : mw < 32) : (maskVal mw).toNat = 2 ^ (mw + 1) - 1 := by
  have hle : 2 ^ (mw + 1) ≤ 2 ^ 32 := Nat.pow_le_pow_right (by decide) (by omega)
  have heq : 2 <<< mw = 2 ^ (mw + 1) := by rw [Nat.shiftLeft_eq, pow_succ, mul_comm]
  rw [maskVal, BitVec.toNat_ofNat, heq, Nat.mod_eq_of_lt (by omega)]

/-- The mask's bits. -/
theorem getLsbD_maskVal {mw : Nat} (h : mw < 32) (i : Nat) :
    (maskVal mw).getLsbD i = decide (i ≤ mw) := by
  rw [← BitVec.testBit_toNat, maskVal_toNat h, Nat.testBit_two_pow_sub_one]
  simp

/-- Bit `j` of byte `k` of a word. -/
theorem getLsbD_byteOf (w : Word) (k j : Nat) :
    (byteOf w k).getLsbD j = (decide (j < 8) && w.getLsbD (8 * k + j)) := by
  simp [byteOf]

/-- Bit `j` of a word with byte `k` replaced. -/
theorem getLsbD_setByte (w : Word) (k : Nat) (b : Byte) {j : Nat} (hj : j < 32) :
    (setByte w k b).getLsbD j =
      if 8 * k ≤ j ∧ j < 8 * k + 8 then b.getLsbD (j - 8 * k) else w.getLsbD j := by
  have hff : ∀ n, (0xFF : Word).getLsbD n = decide (n < 8) := by
    intro n
    by_cases hn : n < 32
    · revert n; decide
    · rw [BitVec.getLsbD_of_ge _ _ (by omega)]; simp; omega
  simp only [setByte, BitVec.getLsbD_or, BitVec.getLsbD_and, BitVec.getLsbD_not,
    BitVec.getLsbD_shiftLeft, BitVec.getLsbD_setWidth, hff, hj, decide_true, Bool.true_and]
  by_cases h1 : 8 * k ≤ j
  · by_cases h2 : j < 8 * k + 8
    · have h3 : j - 8 * k < 8 := by omega
      have h4 : j - 8 * k < 32 := by omega
      simp [h1, h2, h3, h4, Nat.not_lt.mpr h1]
    · have h3 : ¬ j - 8 * k < 8 := by omega
      rw [if_neg (by omega), BitVec.getLsbD_of_ge b _ (by omega)]
      simp [h3]
  · simp [h1, Nat.lt_of_not_le h1]

/-- The register group of the 16-byte mode, as a multiple of four. -/
theorem tdmaGroup_eq (r : Nat) : tdmaGroup r = 4 * (r / 4) := by
  unfold tdmaGroup; omega

end Sys2Proof.Machine
end

