-- ==== Sys2Proof/Laws/PerInstr.lean ====
section
/-! SUPPORT. A statement about every instruction as syntax, one lemma per constructor: a
well-formed instruction's word agrees with its row of spec/opcode_table.json, the opcode and the
reserved bits alike. -/

namespace Sys2Proof.Laws.TableMatch

/-- `mask` of the instruction's row in spec/opcode_table.json. -/
def mask : Instr → Nat
  | .reg2flop _ _ _ _ _ _ => 0xFF000000
  | .streamwait _ _ _ _ => 0xFF000004
  | .streamwrcfg _ _ _ => 0xFF800000
  | .cfgshiftmask _ _ _ _ _ _ => 0xFF000000

/-- `match` of the instruction's row in spec/opcode_table.json. -/
def pattern : Instr → Nat
  | .reg2flop _ _ _ _ _ _ => 0x48000000
  | .streamwait _ _ _ _ => 0xA7000000
  | .streamwrcfg _ _ _ => 0xB7000000
  | .cfgshiftmask _ _ _ _ _ _ => 0xB8000000

/-- A well-formed instruction's word matches its row of the opcode table. -/
def Statement (i : Instr) : Prop :=
  i.WellFormed → encode i &&& BitVec.ofNat 32 (mask i) = BitVec.ofNat 32 (pattern i)

/-- The masked word by its arithmetic: the top byte, and one reserved bit. -/
theorem opcode_of_toNat {w p : Word} (h : w.toNat / 2 ^ 24 = p.toNat / 2 ^ 24)
    (hp : p.toNat % 2 ^ 24 = 0) : w &&& 0xFF000000#32 = p := by
  have hsplit : w &&& 0xFF000000#32 = (w >>> 24) <<< 24 := by
    apply BitVec.eq_of_getLsbD_eq
    intro i hi
    have hm : ∀ i, i < 32 → (0xFF000000#32).getLsbD i = decide (24 ≤ i) := by decide
    rw [BitVec.getLsbD_and, hm i hi]
    by_cases h24 : 24 ≤ i
    · simp [h24, hi, Nat.not_lt.mpr h24]
    · simp [h24, Nat.lt_of_not_le h24]
  rw [hsplit]
  apply BitVec.eq_of_toNat_eq
  have := w.isLt
  have := p.isLt
  simp only [BitVec.toNat_shiftLeft, BitVec.toNat_ushiftRight, Nat.shiftRight_eq_div_pow,
    Nat.shiftLeft_eq, h]
  omega

theorem reg2flop (sz : SizeSel) (tg : TargetSel) (bo cx f r : Nat) :
    Statement (.reg2flop sz tg bo cx f r) := by
  intro h
  simp only [Instr.WellFormed, Instr.wellFormed, Bool.and_eq_true, decide_eq_true_eq] at h
  have h1 := sz.code_lt
  have h2 := tg.code_lt
  simp only [mask, pattern]
  refine opcode_of_toNat ?_ (by decide)
  simp only [encode, Instr.call, MacroCall.value, Nat.shiftLeft_eq]
  rw [ttOp_toNat (by decide) (by omega), BitVec.toNat_ofNat]
  omega

theorem cfgshiftmask (mm : MaskMode) (am : AluMode) (mw rot si ci : Nat) :
    Statement (.cfgshiftmask mm am mw rot si ci) := by
  intro h
  simp only [Instr.WellFormed, Instr.wellFormed, Bool.and_eq_true, decide_eq_true_eq] at h
  have h1 := mm.code_lt
  have h2 := am.code_lt
  simp only [mask, pattern]
  refine opcode_of_toNat ?_ (by decide)
  simp only [encode, Instr.call, MacroCall.value, Nat.shiftLeft_eq]
  rw [ttOp_toNat (by decide) (by omega), BitVec.toNat_ofNat]
  omega

/-- A word masked by the opcode byte and one more bit, from the two parts. -/
theorem mask_or {w : Word} {m₁ m₂ p : Word} (h₁ : w &&& m₁ = p) (h₂ : w &&& m₂ = 0#32) :
    w &&& (m₁ ||| m₂) = p := by
  rw [BitVec.and_or_distrib_left, h₁, h₂, BitVec.or_zero]

/-- A bit that is 0, as a masked word. -/
theorem and_bit_eq_zero {w : Word} {k : Nat} (h : w.toNat / 2 ^ k % 2 = 0) :
    w &&& BitVec.twoPow 32 k = 0#32 := by
  rw [BitVec.and_twoPow, if_neg]
  rw [← BitVec.testBit_toNat, Nat.testBit_eq_decide_div_mod_eq]
  simp [h]

theorem streamwait (sr : BlockMask) (tv : Nat) (ts : CondIndex) (ws : Fin 4) :
    Statement (.streamwait sr tv ts ws) := by
  intro h
  simp only [Instr.WellFormed, Instr.wellFormed, decide_eq_true_eq] at h
  have h1 := ts.code_lt
  have h2 := sr.isLt
  have h3 := ws.isLt
  have hw : (encode (.streamwait sr tv ts ws)).toNat =
      0xA7 * 2 ^ 24 + (sr.toNat * 2 ^ 15 + tv * 2 ^ 4 + ts.code * 2 ^ 3 + ws.val) := by
    simp only [encode, Instr.call, MacroCall.value, Nat.shiftLeft_eq, pow_zero, mul_one]
    rw [ttOp_toNat (by decide) (by omega)]
  have ho : encode (.streamwait sr tv ts ws) &&& 0xFF000000#32 = 0xA7000000#32 :=
    opcode_of_toNat (by rw [hw, BitVec.toNat_ofNat]; omega) (by decide)
  have hb := and_bit_eq_zero (w := encode (.streamwait sr tv ts ws)) (k := 2) (by rw [hw]; omega)
  have hm : BitVec.ofNat 32 (mask (.streamwait sr tv ts ws)) = 0xFF000000#32 ||| BitVec.twoPow 32 2 := by
    simp only [mask]; decide
  rw [hm]
  exact mask_or ho hb

theorem streamwrcfg (sel : Fin 4) (ra cr : Nat) : Statement (.streamwrcfg sel ra cr) := by
  intro h
  simp only [Instr.WellFormed, Instr.wellFormed, Bool.and_eq_true, decide_eq_true_eq] at h
  have h1 := sel.isLt
  have hw : (encode (.streamwrcfg sel ra cr)).toNat =
      0xB7 * 2 ^ 24 + (sel.val * 2 ^ 21 + ra * 2 ^ 11 + cr) := by
    simp only [encode, Instr.call, MacroCall.value, Nat.shiftLeft_eq, pow_zero, mul_one]
    rw [ttOp_toNat (by decide) (by omega)]
  have ho : encode (.streamwrcfg sel ra cr) &&& 0xFF000000#32 = 0xB7000000#32 :=
    opcode_of_toNat (by rw [hw, BitVec.toNat_ofNat]; omega) (by decide)
  have hb := and_bit_eq_zero (w := encode (.streamwrcfg sel ra cr)) (k := 23) (by rw [hw]; omega)
  have hm : BitVec.ofNat 32 (mask (.streamwrcfg sel ra cr)) = 0xFF000000#32 ||| BitVec.twoPow 32 23 := by
    simp only [mask]; decide
  rw [hm]
  exact mask_or ho hb

end Sys2Proof.Laws.TableMatch
end

