-- ==== Sys2Proof/Tests/Slice0.lean ====
section
/-! SUPPORT. The model's own tests. Expected values come from the spec: its pattern strings
(30_encoding.md R72 to R75) and its vectors (95_test_vectors.md, named in each comment). Then, for
each obligation with hypotheses, a witness: concrete data that meets them, clause by clause. -/

open Sys2Proof Sys2Proof.Machine

namespace Sys2Proof.Tests

/-! ## Ill-formed terms that the check refuses, one for each bound (R80) -/

theorem test_byteOffset_bound : (Instr.reg2flop .bits32 .tdma 4 0 0 0).wellFormed = false := by decide
theorem test_contextId2_bound : (Instr.reg2flop .bits32 .tdma 0 4 0 0).wellFormed = false := by decide
theorem test_flopIndex_bound : (Instr.reg2flop .bits32 .tdma 0 0 1024 0).wellFormed = false := by decide
theorem test_regIndex_bound : (Instr.reg2flop .bits32 .tdma 0 0 0 64).wellFormed = false := by decide
theorem test_targetValue_bound : (Instr.streamwait 0 2048 .phase 0).wellFormed = false := by decide
theorem test_streamRegAddr_bound : (Instr.streamwrcfg 0 1024 0).wellFormed = false := by decide
theorem test_cfgReg_bound : (Instr.streamwrcfg 0 0 2048).wellFormed = false := by decide
theorem test_maskWidth_bound : (Instr.cfgshiftmask .keep .or 32 0 0 0).wellFormed = false := by decide
theorem test_rotateAmt_bound : (Instr.cfgshiftmask .keep .or 0 32 0 0).wellFormed = false := by decide
theorem test_scratchIndex_bound : (Instr.cfgshiftmask .keep .or 0 0 4 0).wellFormed = false := by decide
theorem test_cfgIndex_bound : (Instr.cfgshiftmask .keep .or 0 0 0 256).wellFormed = false := by decide

/-! The same of calls as they are written: each argument at `2^width` is an assembly error (R80). -/

theorem test_reg2flop_call_bounds :
    assemble (.reg2flop 4 0 0 0 0 0) = none ∧ assemble (.reg2flop 0 4 0 0 0 0) = none ∧
    assemble (.reg2flop 0 0 4 0 0 0) = none ∧ assemble (.reg2flop 0 0 0 4 0 0) = none ∧
    assemble (.reg2flop 0 0 0 0 1024 0) = none ∧ assemble (.reg2flop 0 0 0 0 0 64) = none := by decide
theorem test_streamwait_call_bounds :
    assemble (.streamwait 512 0 0 0) = none ∧ assemble (.streamwait 0 2048 0 0) = none ∧
    assemble (.streamwait 0 0 2 0) = none ∧ assemble (.streamwait 0 0 0 4) = none := by decide
theorem test_streamwrcfg_call_bounds :
    assemble (.streamwrcfg 4 0 0) = none ∧ assemble (.streamwrcfg 0 1024 0) = none ∧
    assemble (.streamwrcfg 0 0 2048) = none := by decide
theorem test_cfgshiftmask_call_bounds :
    assemble (.cfgshiftmask 2 0 0 0 0 0) = none ∧ assemble (.cfgshiftmask 0 8 0 0 0 0) = none ∧
    assemble (.cfgshiftmask 0 0 32 0 0 0) = none ∧ assemble (.cfgshiftmask 0 0 0 32 0 0) = none ∧
    assemble (.cfgshiftmask 0 0 0 0 4 0) = none ∧ assemble (.cfgshiftmask 0 0 0 0 0 256) = none := by
  decide

/-- Calls in range, of vectors E7, F10, G2, H4. -/
theorem test_assemble :
    assemble (.cfgshiftmask 1 7 31 31 3 0xFF) = some 0xB8FFFFFF ∧
    assemble (.reg2flop 0 1 0 0 1020 4) = some 0x4810FF04 ∧
    assemble (.streamwait 0x40 0x7FF 1 3) = some 0xA7207FFB ∧
    assemble (.streamwrcfg 2 0x0B 0x10) = some 0xB7405810 := by decide

/-! ## Decoding: words written out from the pattern strings -/

/-- Pattern `10111000 M AAA WWWWW RRRRR SS CCCCCCCC`; vectors E5, E4. -/
theorem test_decode_cfgshiftmask :
    decode 0b10111000_1_101_01011_11100_00_00010000 =
      .instr (.cfgshiftmask .keep .andNot 11 28 0 0x10) ∧
    decode 0b10111000_0_010_00000_00001_10_11111111 =
      .instr (.cfgshiftmask .clearRegion .xor 0 1 2 0xFF) := by decide

/-- Pattern `01001000 ZZ TT BB XX FFFFFFFFFF GGGGGG`; vectors F6, F3. -/
theorem test_decode_reg2flop :
    decode 0b01001000_10_00_00_10_0000100001_000110 =
      .instr (.reg2flop .bits16 .tdma 0 2 0x21 6) ∧
    decode 0b01001000_11_10_11_00_1111111111_111111 =
      .instr (.reg2flop .bits8 .addrCntrs 3 0 0x3FF 63) := by decide

/-- Pattern `10100111 SSSSSSSSS VVVVVVVVVVV C 0 WW`; vectors G5, G9. -/
theorem test_decode_streamwait :
    decode 0b10100111_000100001_10000000000_0_0_00 = .instr (.streamwait 0x021 0x400 .phase 0) ∧
    decode 0b10100111_111111111_11111111111_1_0_11 = .instr (.streamwait 0x1FF 0x7FF .numMsgs 3) := by
  decide

/-- Pattern `10110111 0 WW AAAAAAAAAA CCCCCCCCCCC`; vectors H4, H2. -/
theorem test_decode_streamwrcfg :
    decode 0b10110111_0_10_0000001011_00000010000 = .instr (.streamwrcfg 2 0x0B 0x10) ∧
    decode 0b10110111_0_11_1111111111_11111111111 = .instr (.streamwrcfg 3 0x3FF 0x7FF) := by decide

/-- The words of vectors E1, E2, E7, E8 from their macro arguments. -/
theorem test_encode_cfgshiftmask :
    encode (.cfgshiftmask .clearRegion .or 7 24 1 0x40) = 0xB803E140 ∧
    encode (.cfgshiftmask .keep .add 31 0 3 0x55) = 0xB8BF8355 ∧
    encode (.cfgshiftmask .keep .sub 31 31 3 0xFF) = 0xB8FFFFFF ∧
    encode (.cfgshiftmask .clearRegion .xorNot 15 16 2 0x80) = 0xB867C280 := by decide

/-- Vectors F1, F8, F10, G2, G8, H3, H5. -/
theorem test_encode_others :
    encode (.reg2flop .bits32 .tdma 0 0 0x21 5) = 0x48400845 ∧
    encode (.reg2flop .bits32 .overrideCtx 0 1 0x21 5) = 0x48710845 ∧
    encode (.reg2flop .bytes16 .localRegs 0 0 1020 4) = 0x4810FF04 ∧
    encode (.streamwait 0x40 0x7FF .numMsgs 3) = 0xA7207FFB ∧
    encode (.streamwait 0x80 7 .numMsgs 0) = 0xA7400078 ∧
    encode (.streamwrcfg 1 0x20 0x55) = 0xB7210055 ∧
    encode (.streamwrcfg 0 0x20 0x30) = 0xB7010030 := by decide

/-- Vectors X1 to X6. -/
theorem test_decode_refusals :
    decode 0xA7000004 = .refused .reservedBitSet ∧ decode 0xB7800000 = .refused .reservedBitSet ∧
    decode 0x00000000 = .refused .opcodeNotInScope ∧ decode 0xB9000000 = .refused .opcodeNotInScope ∧
    decode 0xFFFFFFFF = .refused .opcodeNotInScope ∧
    decode 0xB8FFFFFF = .instr (.cfgshiftmask .keep .sub 31 31 3 0xFF) ∧
    decode 0x48FFFFFF = .instr (.reg2flop .bits8 .overrideCtx 3 3 0x3FF 63) := by decide

/-- The host's numbering of a table word: `nbits` 32 gives the word itself. -/
theorem test_decodeTableWord :
    decodeTableWord 32 0xA7400039 = some (.streamwait 0x80 3 .numMsgs 1) ∧
    decodeTableWord 32 0xB7800000 = none := by decide

/-! ## One step of each instruction -/

/-- The next state of an outcome. -/
def nextOf (o : Host.Outcome State Fault Refusal) : Option State :=
  match o with
  | .next s => some s
  | _ => none

/-- The refusal of an outcome. -/
def refusedAs (o : Host.Outcome State Fault Refusal) : Option Refusal :=
  match o with
  | .refused r => some r
  | _ => none

/-- A thread with state id `sid`, the `BankSel` values 4, 7, 9, 63 of 95_test_vectors.md section 6,
high fields 1 and 2, and program `prog`. -/
def testThread (sid : Nat) (prog : List Word) : Thread :=
  { Thread.reset with prog := prog, tcfg := ⟨sid, #v[4, 7, 9, 63], 1, 2⟩ }

/-- Three threads with state ids 0, 1, 2 (the last out of range), the `x[..]` of section 4 on thread
0, the scratch registers and targets of section 3 in banks 0 and 1, the stream registers of
section 6. -/
def testState : State :=
  { State.reset with
    threads := [testThread 0 [0xB803E140, 0x48400845], testThread 1 [0xB7210055], testThread 2 []]
    tdma := [(⟨0, 4⟩, 0x04040404), (⟨0, 5⟩, 0x11223344), (⟨0, 6⟩, 0xAABBCCDD), (⟨0, 7⟩, 0x1EE),
      (⟨0, 8⟩, 0x08080808), (⟨0, 9⟩, 0x09090909), (⟨0, 10⟩, 0x0A0A0A0A), (⟨0, 11⟩, 0x0B0B0B0B)]
    config := [(⟨0, 0x30⟩, 0x80000001), (⟨0, 0x31⟩, 0x12345678), (⟨0, 0x40⟩, 0xCAFEF00D),
      (⟨1, 0x31⟩, 0x300), (⟨1, 0x40⟩, 0x11111111)]
    flops := [(⟨0, 0x21⟩, 0x11223344)]
    streams := [(⟨4, 0⟩, 1), (⟨7, 0x0B⟩, 2), (⟨7, 0x20⟩, 0xDEADBEEF), (⟨63, 0x3FF⟩, 0x0BADF00D)] }

/-- The config register `a` after an instruction. -/
def configAfter (i : Instr) (s : State) (a : RegAddr) : Option Word :=
  (nextOf (exec i s)).map (fun t => t.readConfig a)

/-- Section 3's table, column a: MaskMode 0 OR, MaskMode 0 SUB, MaskMode 1 ADD, MaskMode 1 XOR-NOT;
and vectors S6, S7 on `SCRATCH_SEC[0]` itself. -/
theorem test_cfgshiftmask_values :
    configAfter (.cfgshiftmask .clearRegion .or 7 24 1 0x40) testState ⟨0, 0x40⟩ = some 0xCAFE780D ∧
    configAfter (.cfgshiftmask .clearRegion .sub 7 24 1 0x40) testState ⟨0, 0x40⟩ = some 0xCAFD880D ∧
    configAfter (.cfgshiftmask .keep .add 7 24 1 0x40) testState ⟨0, 0x40⟩ = some 0xCAFF680D ∧
    configAfter (.cfgshiftmask .keep .xorNot 7 24 1 0x40) testState ⟨0, 0x40⟩ = some 0x350177F2 ∧
    configAfter (.cfgshiftmask .keep .add 31 0 3 0x30) testState ⟨0, 0x30⟩ = some 0x00000002 ∧
    configAfter (.cfgshiftmask .keep .xor 31 0 3 0x30) testState ⟨0, 0x30⟩ = some 0 := by decide

/-- The bank is the thread's state id, for target and scratch alike; ScratchIndex 3 is the thread's
entry; a state id of 2 is refused (section 3, rule R108). -/
theorem test_cfgshiftmask_banks :
    configAfter (.cfgshiftmask .keep .or 31 0 3 0x40) { testState with currentThread := 1 } ⟨1, 0x40⟩ =
      some 0x11111311 ∧
    configAfter (.cfgshiftmask .keep .or 31 0 3 0x40) { testState with currentThread := 1 } ⟨0, 0x40⟩ =
      some 0xCAFEF00D ∧
    refusedAs (exec (.cfgshiftmask .keep .or 31 0 3 0x40) { testState with currentThread := 2 }) =
      some .cfgStateOutOfRange := by decide

/-- The flop `a` after an instruction. -/
def flopAfter (i : Instr) (a : RegAddr) : Option Word :=
  (nextOf (exec i testState)).map (fun t => t.readFlop a)

/-- Vectors T2, T3, T5 (`k` = 1 and 3), T8 (first and last), on the word's own bank. -/
theorem test_reg2flop_values :
    flopAfter (.reg2flop .bits16 .tdma 0 0 0x21 6) ⟨0, 0x21⟩ = some 0x1122CCDD ∧
    flopAfter (.reg2flop .bits16 .localRegs 1 0 0x21 6) ⟨1, 0x21⟩ = some 0xCCDD0000 ∧
    flopAfter (.reg2flop .bits8 .tdma 1 0 0x21 7) ⟨0, 0x21⟩ = some 0x1122EE44 ∧
    flopAfter (.reg2flop .bits8 .tdma 3 0 0x21 7) ⟨0, 0x21⟩ = some 0xEE223344 ∧
    flopAfter (.reg2flop .bytes16 .tdma 0 0 0x10 9) ⟨0, 0x10⟩ = some 0x08080808 ∧
    flopAfter (.reg2flop .bytes16 .tdma 0 0 0x10 9) ⟨0, 0x13⟩ = some 0x0B0B0B0B := by decide

/-- Vectors T4, T7, T10, T13: each refusal, and the priority of Target3. -/
theorem test_reg2flop_refusals :
    refusedAs (exec (.reg2flop .bits16 .tdma 2 0 0x21 6) testState) = some .reg2FlopByteOffset ∧
    refusedAs (exec (.reg2flop .bits8 .overrideCtx 3 3 0x3FF 63) testState) = some .reg2FlopTarget3 ∧
    refusedAs (exec (.reg2flop .bytes16 .localRegs 0 0 1021 4) testState) =
      some .reg2FlopIndexOutOfRange ∧
    refusedAs (exec (.reg2flop .bits16 .overrideCtx 3 0 0 0) testState) = some .reg2FlopTarget3 := by
  decide

/-- The test state with flop banks past the bound of R5. -/
def manyFlops : State := { testState with params := { Params.default with nflop := 2048 } }

/-- R124: `FlopIndex + 3` exceeds 1023 at 1021 and not at 1020, whatever NFLOP is. -/
theorem test_reg2flop_last_index :
    refusedAs (exec (.reg2flop .bytes16 .tdma 0 0 1021 4) manyFlops) = some .reg2FlopIndexOutOfRange ∧
    (nextOf (exec (.reg2flop .bytes16 .tdma 0 0 1020 4) manyFlops)).map (fun t => t.readFlop ⟨0, 1023⟩) =
      some 0x1EE := by decide

/-- The current thread's latch after a STREAMWAIT. -/
def latchAfter (i : Instr) : Option Latch :=
  (nextOf (exec i testState)).bind fun t => (t.thread? 0).bind Thread.gate

/-- Vectors W5, W8, W9, and W1's default mask: PHASE_HI is 1 and NUM_MSGS_HI is 2. -/
theorem test_streamwait_latch :
    latchAfter (.streamwait 0x021 0x400 .phase 0) = some ⟨.streamwait, 1, 0x400, 0, 0x021⟩ ∧
    latchAfter (.streamwait 0x080 7 .phase 0) = some ⟨.streamwait, 1, 0x407, 0, 0x080⟩ ∧
    latchAfter (.streamwait 0x080 7 .numMsgs 0) = some ⟨.streamwait, 2, 0x807, 0, 0x080⟩ ∧
    latchAfter (.streamwait 0 5 .phase 0) = some ⟨.streamwait, 1, 0x405, 0, 0x040⟩ := by decide

/-- Section 5's targets with wide high fields. -/
theorem test_streamwait_target :
    streamTarget 2 0x7FF = 0xFFF ∧ streamTarget 1 0x7FF = 0x7FF ∧ streamTarget 3 1 = 0xC01 ∧
    streamTarget 0x3FFFFF 0x7FF = 0xFFFFFFFF ∧ streamTarget 0x400000 0 = 0x100000000 := by decide

/-- Vector V2 on thread 1: the entry queued at issue, and Config untouched by the issue. -/
theorem test_streamwrcfg_issue :
    (nextOf (exec (.streamwrcfg 1 0x20 0x55) { testState with currentThread := 1 })).map
      (fun t => ((t.thread? 1).map Thread.pendingStreamWrCfg, t.readConfig ⟨1, 0x55⟩)) =
      some (some [⟨⟨7, 0x20⟩, ⟨1, 0x55⟩⟩], 0) := by decide

/-- Vector V2, issue then perform, run by the machine's own steps. -/
theorem test_streamwrcfg_perform :
    (nextOf (Host.Core.run Sys2Proof.core 2
      ({ testState with sched := [.threadStep 1, .cfgPerform 1] } : State))).map
      (fun t => (t.readConfig ⟨1, 0x55⟩, (t.thread? 1).map Thread.pendingStreamWrCfg)) =
      some (0xDEADBEEF, some []) := by decide

/-- A thread whose latch waits for 3 messages on stream select 1, for class B7 (vector K1). -/
def waitingThread : Thread := { testThread 0 [0xB8BF8355, 0xA7400039] with
  gate := some ⟨.streamwait, 2, 3, 1, 0x080⟩ }

/-- Thread 0 waits as in vector K1: 2 messages so far. -/
def waitingState : State := { testState with threads := [waitingThread, testThread 1 []] }

/-- The same with 3 messages (vector K2). -/
def metState : State := waitingState.writeStream ⟨7, 0x0B⟩ 3

/-- Vectors K1, K2, K3: held at 2, not held at 3, other classes not held. -/
theorem test_hold_rule :
    gateVerdict waitingState.params waitingState.streams waitingThread
      (.cfgshiftmask .keep .add 31 0 3 0x55) = .hold ∧
    gateVerdict metState.params metState.streams waitingThread
      (.cfgshiftmask .keep .add 31 0 3 0x55) = .met ∧
    gateVerdict waitingState.params waitingState.streams waitingThread
      (.reg2flop .bits32 .tdma 0 0 0 0) = .notBlocked := by decide

/-- A placed word is what the very next step runs, from reset, one word of each family. -/
theorem test_placed_words_run :
    ((nextOf (step (State.reset.withFetchWord 32 0xB8000000))).bind fun t =>
      (t.thread? 0).map Thread.lastWasCfgShiftMask) = some (some ⟨0, 0⟩) ∧
    ((nextOf (step (State.reset.withFetchWord 32 0x48000000))).bind fun t =>
      (t.thread? 0).map Thread.pc) = some 1 ∧
    ((nextOf (step (State.reset.withFetchWord 32 0xA7000000))).bind fun t =>
      (t.thread? 0).map Thread.gate) = some (some ⟨.streamwait, 1, 0, 0, 0x040⟩) ∧
    ((nextOf (step (State.reset.withFetchWord 32 0xB7000000))).bind fun t =>
      (t.thread? 0).map Thread.pendingStreamWrCfg) = some [⟨⟨0, 0⟩, ⟨0, 0⟩⟩] := by decide

/-! ## Witnesses: for each obligation with hypotheses, data that meets them, each clause at a
boundary of its range -/

/-- Thread 0 of the test state. -/
def thread0 : Thread := testThread 0 [0xB803E140, 0x48400845]

/-- The test state with one more thread, the fourth, which has no scratch entry. -/
def fourThreads : State :=
  { testState with threads := testState.threads ++ [testThread 1 []], currentThread := 3 }

/-- The test state under `REG2FLOP_TARGET3 = bank3`. -/
def bank3State : State := { testState with params := { Params.default with target3 := .bank3 } }

/-- The test state with Config banks of 64 registers and a scratch register past the bank. -/
def smallConfig : State :=
  { testState with params := { Params.default with cfgStateSize := 0x32 } }

/-- The largest arguments of each form, well formed and told as a call. -/
theorem witness_DecodeOfEncode :
    assemble (.reg2flop 3 3 3 3 1023 63) = some 0x48FFFFFF ∧
    assemble (.streamwait 511 2047 1 3) = some 0xA7FFFFFB ∧
    assemble (.streamwrcfg 3 1023 2047) = some 0xB77FFFFF ∧
    assemble (.cfgshiftmask 1 7 31 31 3 255) = some 0xB8FFFFFF ∧
    (Instr.reg2flop .bits8 .overrideCtx 3 3 1023 63).WellFormed ∧
    (Instr.streamwait 0x1FF 2047 .numMsgs 3).WellFormed ∧
    (Instr.streamwrcfg 3 1023 2047).WellFormed ∧
    (Instr.cfgshiftmask .keep .sub 31 31 3 255).WellFormed := by decide

theorem witness_EncodeOfDecode :
    decode 0xA7FFFFFB = .instr (.streamwait 0x1FF 0x7FF .numMsgs 3) ∧
    decode 0xB77FFFFF = .instr (.streamwrcfg 3 0x3FF 0x7FF) := by decide

theorem witness_UsageExampleWord : (255 : Nat) < 256 := by decide

theorem witness_RotateRight : (31 : Nat) < 32 ∧ 32 % 32 = 0 := by decide

theorem witness_MaskAndRotation : (31 : Nat) < 32 ∧ 31 ≤ 31 := by decide

theorem witness_MaskModeTable : (0 : Nat) < 32 ∧ (31 : Nat) < 32 := by decide

theorem witness_ByteOfFlop : (3 : Nat) < 4 ∧ (0 : Nat) < 4 := by decide

/-- The test state with every scratch register read from bank 1. -/
def fixedBank : State :=
  { testState with params := { Params.default with scratchBank := .fixed 1 } }

/-- The last register of a bank, and the last direct scratch entry; each setting of the bank. -/
theorem witness_CfgshiftmaskResult :
    testState.thread? testState.currentThread = some thread0 ∧
    thread0.tcfg.stateId < testState.params.cfgNumStates ∧
    (testState.params.scratchBank = .ownState ∧ 0 = thread0.tcfg.stateId) ∧
    fixedBank.thread? fixedBank.currentThread = some thread0 ∧
    fixedBank.params.scratchBank = .fixed 1 ∧ 1 < fixedBank.params.cfgNumStates ∧
    2047 < testState.params.cfgStateSize ∧
    testState.params.scratchAddr32[if 2 < 3 then 2 else testState.currentThread]? = some 0x32 ∧
    0x32 < testState.params.cfgStateSize := by decide

/-- R24 under `fixed 1`: thread 0 takes `SCRATCH_SEC[1]` of bank 1 (0x300), not of its own bank 0. -/
theorem test_cfgshiftmask_fixed_bank :
    configAfter (.cfgshiftmask .clearRegion .or 31 0 1 0x40) fixedBank ⟨0, 0x40⟩ = some 0x300 := by decide

theorem witness_CfgshiftmaskFrame :
    testState.thread? testState.currentThread = some thread0 ∧
    ∃ t, exec (.cfgshiftmask .keep .add 31 31 3 255) testState = .next t :=
  ⟨by decide, _, rfl⟩

/-- ScratchIndex 3 on thread 0, target 0x30. -/
theorem witness_TargetIsScratch :
    testState.thread? testState.currentThread = some thread0 ∧
    thread0.tcfg.stateId < testState.params.cfgNumStates ∧
    scratchBankOf testState.params thread0.tcfg.stateId = thread0.tcfg.stateId ∧
    0x30 < testState.params.cfgStateSize ∧
    testState.params.scratchAddr32[if 3 < 3 then 3 else testState.currentThread]? = some 0x30 := by
  decide

/-- State id 2 of 2; then an index at the bank's size; then a scratch register past the bank. -/
theorem witness_CfgshiftmaskRefusals :
    testState.thread? 2 = some (testThread 2 []) ∧
    testState.params.cfgNumStates ≤ (testThread 2 []).tcfg.stateId ∧
    testState.params.cfgStateSize ≤ 2048 ∧
    smallConfig.params.scratchAddr32[if 2 < 3 then 2 else smallConfig.currentThread]? = some 0x32 ∧
    smallConfig.params.cfgStateSize ≤ 0x32 ∧
    fourThreads.thread? fourThreads.currentThread = some (testThread 1 []) ∧
    fourThreads.params.nscratch ≤ (if 3 < 3 then 3 else fourThreads.currentThread) := by decide

theorem test_refusal_of_scratch_past_bank :
    refusedAs (exec (.cfgshiftmask .keep .or 0 0 2 0) smallConfig) = some .cfgIndexOutOfRange ∧
    refusedAs (exec (.cfgshiftmask .keep .or 0 0 3 0) fourThreads) = some .cfgIndexOutOfRange := by
  decide

/-- Thread 2 is the last that has an entry; thread 3 has none. -/
theorem witness_ScratchIndexThree :
    ({ testState with currentThread := 2 } : State).thread? 2 = some (testThread 2 []) ∧ 2 < 3 ∧
    fourThreads.thread? fourThreads.currentThread = some (testThread 1 []) ∧
    fourThreads.params.nscratch ≤ fourThreads.currentThread ∧
    (testThread 1 []).tcfg.stateId < fourThreads.params.cfgNumStates ∧
    scratchBankOf fourThreads.params (testThread 1 []).tcfg.stateId < fourThreads.params.cfgNumStates := by
  decide

theorem witness_GeneralRegisterBanks :
    testState.params.gprPerThread = true ∧ (⟨1, 5⟩ : RegAddr).bank ≠ testState.currentThread ∧
    ({ Params.default with gprPerThread := false } : Params).gprPerThread = false := by decide

/-- Thread 1's turn, with one shared TDMA file. -/
def sharedFile : State :=
  { testState with
    params := { Params.default with gprPerThread := false }
    currentThread := 1 }

/-- R22: with one shared file thread 1 reads what thread 0 reads; with banks it does not. -/
theorem test_general_register_banks :
    ({ testState with currentThread := 1 } : State).readTdma 5 = 0 ∧
    sharedFile.readTdma 5 = 0x11223344 := by decide

/-- For Reg2flop32, Reg2flop16, Reg2flop8: each bank, the last flop, the last register, and
ByteOffset at both sides of 2 and at 3. -/
theorem witness_Reg2flopNarrow :
    testState.thread? testState.currentThread = some thread0 ∧
    flopBank? testState.params .addrCntrs = some 2 ∧
    flopBank? bank3State.params .overrideCtx = some 3 ∧
    1023 < testState.params.nflop ∧ 63 < testState.params.ngpr ∧
    2 ≤ 2 ∧ 1 < 2 ∧ 0 < 2 ∧ 3 < 4 := by decide

/-- For Reg2flop16Bytes: 1021 is past the end, 1020 is the last that fits. -/
theorem witness_Reg2flop16Bytes :
    testState.thread? testState.currentThread = some thread0 ∧
    flopBank? testState.params .tdma = some 0 ∧
    testState.params.nflop ≤ 1021 + 3 ∧ 1020 + 3 < testState.params.nflop ∧ 1021 ≤ 1021 ∧ 1020 < 1021 ∧
    4 * (63 / 4) + 3 < testState.params.ngpr := by decide

theorem witness_Reg2flopFrame :
    (∃ t, exec (.reg2flop .bytes16 .tdma 3 3 1020 63) testState = .next t) ∧
    (∃ t, exec (.reg2flop .bits32 .localRegs 3 3 1023 63) testState = .next t) ∧
    (∃ t, exec (.reg2flop .bits16 .addrCntrs 1 3 1023 63) testState = .next t) ∧
    (∃ t, exec (.reg2flop .bits8 .overrideCtx 3 3 1023 63) bank3State = .next t) :=
  ⟨⟨_, rfl⟩, ⟨_, rfl⟩, ⟨_, rfl⟩, ⟨_, rfl⟩⟩

theorem witness_Reg2flopUnusedFields : (0x48FFFFFF : Word).toNat / 2 ^ 24 = 0x48 := by decide

theorem witness_Reg2flopTargets :
    testState.thread? testState.currentThread = some thread0 ∧
    testState.params.target3 = .refuse ∧ TargetSel.addrCntrs ≠ .overrideCtx ∧
    bank3State.params.target3 = .bank3 ∧ 1 < 2 ∧ 1020 + 3 < testState.params.nflop ∧ 1020 < 1021 ∧
    4 * (63 / 4) + 3 < testState.params.ngpr := by decide

/-- For Reg2flopRefusals: the four vectors of `test_reg2flop_refusals` meet one clause each; here the
index past a parameter's bound. -/
theorem witness_Reg2flopRefusals :
    refusedAs (exec (.reg2flop .bits32 .tdma 0 0 1024 0) testState) = some .reg2FlopIndexOutOfRange ∧
    refusedAs (exec (.reg2flop .bits8 .tdma 0 0 0 64) testState) = some .reg2FlopIndexOutOfRange := by
  decide

theorem witness_StreamwaitWritesLatch :
    testState.thread? testState.currentThread = some thread0 ∧ thread0.tcfg.phaseHi = 1 := by decide

theorem witness_StreamwaitFrame :
    ∃ t, exec (.streamwait 0x1FF 2047 .numMsgs 3) testState = .next t := ⟨_, rfl⟩

theorem witness_StreamwaitTarget : (2047 : Nat) < 2048 ∧ (1023 : Nat) < 1024 ∧ 9 < 10 := by decide

/-- A thread with the default mask latched. -/
theorem witness_DefaultBlockMask :
    ({ thread0 with gate := some ⟨.streamwait, 1, 5, 0, 0x040⟩ } : Thread).gate =
      some ⟨.streamwait, 1, 5, 0, 0x040⟩ := by decide

theorem witness_BlockClasses : (2047 : Nat) < 2048 ∧ (8 : Nat) < 9 := by decide

/-- The latch of `waitingThread`. -/
def waitingLatch : Latch := ⟨.streamwait, 2, 3, 1, 0x080⟩

/-- A stream past the end; then one in range, at the target and below it; then the targets 0 and
`2^32`. -/
theorem witness_LatchCondition :
    waitingThread.gate = some waitingLatch ∧
    waitingLatch.blockMask &&& stallBits (.streamwrcfg 0 0 0) ≠ 0 ∧
    ({ Params.default with nstreams := 7 } : Params).nstreams ≤
      waitingThread.tcfg.bankSel[waitingLatch.streamSelect] ∧
    waitingThread.tcfg.bankSel[waitingLatch.streamSelect] < Params.default.nstreams ∧
    Params.default.currPhaseReg < Params.default.nstreamregs ∧
    Params.default.numMsgsReg < Params.default.nstreamregs ∧
    ({ waitingLatch with targetValue := 0 } : Latch).targetValue = 0 ∧
    2 ^ 32 - 1 < ({ waitingLatch with targetValue := 2 ^ 32 } : Latch).targetValue ∧
    waitingLatch.conditionMask = 2#2 := by decide

/-- The word at the waiting thread's position, held, met, on a stream that does not exist, of a
class not in the mask, and with no latch. -/
theorem witness_HoldRule :
    waitingState.thread? 0 = some waitingThread ∧ waitingThread.prog[waitingThread.pc]? = some 0xB8BF8355 ∧
    decode 0xB8BF8355 = .instr (.cfgshiftmask .keep .add 31 0 3 0x55) ∧
    waitingLatch.blockMask &&& stallBits (.cfgshiftmask .keep .add 31 0 3 0x55) ≠ 0 ∧
    latchInRange waitingState.params waitingThread waitingLatch = true ∧
    keepBlocking waitingState.params waitingState.streams waitingThread waitingLatch = true ∧
    keepBlocking metState.params metState.streams waitingThread waitingLatch = false ∧
    latchInRange { Params.default with nstreams := 7 } waitingThread waitingLatch = false ∧
    waitingLatch.blockMask &&& stallBits (.reg2flop .bits32 .tdma 0 0 0 0) = 0 ∧
    thread0.gate = none := by decide

/-- Thread 0 at a STREAMWAIT on class B7, then a REG2FLOP, then a CFGSHIFTMASK. -/
def threeInstructions : State :=
  { testState with threads := [testThread 0 [0xA7400039, 0x48400845, 0xB8BF8355]] }

/-- Right after the STREAMWAIT, with the messages counted down, an instruction of a class not in the
mask; after that one has run, the next, whose class is in the mask, unmet. -/
theorem witness_LatchedNotImmediate :
    ∃ s₁ th₁ l, exec (.streamwait 0x80 3 .numMsgs 1) threeInstructions = .next s₁ ∧
      s₁.thread? 0 = some th₁ ∧ th₁.gate = some l ∧
      (∃ s₂ th₂, runMoves [.envStep 7 0x0B 0] s₁ = .next s₂ ∧ s₂.thread? 0 = some th₂ ∧
        th₂.gate = some l ∧ th₂.prog[th₂.pc]? = some 0x48400845) ∧
      decode 0x48400845 = .instr (.reg2flop .bits32 .tdma 0 0 0x21 5) ∧
      (if (0x80 : BlockMask) = 0 then 0x040 else 0x80) &&& stallBits (.reg2flop .bits32 .tdma 0 0 0x21 5) = 0 ∧
      (∃ s₂ th₂, runMoves [.envStep 7 0x0B 0, .threadStep 0] s₁ = .next s₂ ∧ s₂.thread? 0 = some th₂ ∧
        th₂.gate = some l ∧ th₂.prog[th₂.pc]? = some 0xB8BF8355 ∧
        latchInRange s₂.params th₂ l = true ∧ keepBlocking s₂.params testState.streams th₂ l = true) ∧
      decode 0xB8BF8355 = .instr (.cfgshiftmask .keep .add 31 0 3 0x55) ∧
      (if (0x80 : BlockMask) = 0 then 0x040 else 0x80) &&& stallBits (.cfgshiftmask .keep .add 31 0 3 0x55) ≠ 0 :=
  ⟨_, _, _, rfl, rfl, rfl, ⟨_, _, rfl, rfl, rfl, by decide⟩, by decide, by decide,
    ⟨_, _, rfl, rfl, rfl, by decide, by decide, by decide⟩, by decide, by decide⟩

/-- A thread at a STREAMWAIT, whose latch has B1 (vector K6) or not (vector K14). -/
def secondWait (mask : BlockMask) : Thread :=
  { waitingThread with pc := 1, gate := some { waitingLatch with blockMask := mask } }

theorem witness_SecondStreamwait :
    (secondWait 0x002).prog[(secondWait 0x002).pc]? = some 0xA7400039 ∧
    decode 0xA7400039 = .instr (.streamwait 0x80 3 .numMsgs 1) ∧
    (secondWait 0x002).gate = some { waitingLatch with blockMask := 0x002 } ∧
    (0x002 : BlockMask).getLsbD 1 = true ∧ (0x080 : BlockMask).getLsbD 1 = false ∧
    latchInRange waitingState.params (secondWait 0x002) { waitingLatch with blockMask := 0x002 } = true ∧
    keepBlocking waitingState.params waitingState.streams (secondWait 0x002)
      { waitingLatch with blockMask := 0x002 } = true ∧
    keepBlocking metState.params metState.streams (secondWait 0x002)
      { waitingLatch with blockMask := 0x002 } = false ∧
    latchInRange { Params.default with nstreams := 7 } (secondWait 0x002)
      { waitingLatch with blockMask := 0x002 } = false := by decide

/-- The met condition on a machine that has not its stream. -/
def fewStreams : State := { metState with params := { Params.default with nstreams := 7 } }

/-- Met; no latch; not met; and, told neither met nor unmet, a stream that does not exist. -/
theorem witness_ReleaseDropsMetLatch :
    metState.thread? 0 = some waitingThread ∧ waitingThread.gate = some waitingLatch ∧
    latchInRange metState.params waitingThread waitingLatch = true ∧
    keepBlocking metState.params metState.streams waitingThread waitingLatch = false ∧
    metState.thread? 1 = some (testThread 1 []) ∧ (testThread 1 []).gate = none ∧
    waitingState.thread? 0 = some waitingThread ∧
    keepBlocking waitingState.params waitingState.streams waitingThread waitingLatch = true ∧
    fewStreams.thread? 0 = some waitingThread ∧
    latchInRange fewStreams.params waitingThread waitingLatch = false ∧
    keepBlocking fewStreams.params fewStreams.streams waitingThread waitingLatch = false := by decide

/-- A met latch before a word that is refused. -/
def metAtBadWord : State := { metState with threads := [{ waitingThread with prog := [0xB7800000] }] }

/-- An attempt that moves, and one that is refused. -/
theorem witness_ReleaseIsUnobservable :
    metState.thread? 0 = some waitingThread ∧ gateReleasable metState waitingThread = true ∧
    (∃ s₁ th₁, perform (.threadStep 0) metState = .next s₁ ∧ s₁.thread? 0 = some th₁ ∧ th₁.pc = 1) ∧
    metAtBadWord.thread? 0 = some { waitingThread with prog := [0xB7800000] } ∧
    gateReleasable metAtBadWord { waitingThread with prog := [0xB7800000] } = true ∧
    perform (.threadStep 0) metAtBadWord = .refused .reservedBitSet :=
  ⟨by decide, by decide, ⟨_, _, rfl, rfl, rfl⟩, by decide, by decide, rfl⟩

/-- From 3 messages to any file that holds at least as much everywhere; here itself. -/
theorem witness_MetStaysMet :
    (∀ a, (metState.streams.read a).toNat ≤ (metState.streams.read a).toNat) ∧
    keepBlocking metState.params metState.streams waitingThread waitingLatch = false :=
  ⟨fun _ => Nat.le_refl _, by decide⟩

/-- Vector V4: the last stream, stream register and Config register, state id 1 of 2. -/
theorem witness_StreamwrcfgIssues :
    testState.thread? 1 = some (testThread 1 [0xB7210055]) ∧
    (testThread 1 []).tcfg.bankSel[(3 : Fin 4)] < testState.params.nstreams ∧
    1023 < testState.params.nstreamregs ∧
    (testThread 1 []).tcfg.stateId < testState.params.cfgNumStates ∧
    2047 < testState.params.cfgStateSize := by decide

theorem witness_StreamwrcfgFrame :
    ∃ t, exec (.streamwrcfg 3 1023 2047) { testState with currentThread := 1 } = .next t := ⟨_, rfl⟩

/-- Section 6's refusals, at each bound, and their order. -/
theorem witness_StreamwrcfgRefusals :
    refusedAs (exec (.streamwrcfg 1 0x20 0) { testState with params := { Params.default with nstreams := 7 } }) =
      some .streamIndexOutOfRange ∧
    refusedAs (exec (.streamwrcfg 1 1024 0) testState) = some .streamIndexOutOfRange ∧
    refusedAs (exec (.streamwrcfg 1 0x20 2048) { testState with currentThread := 2 }) =
      some .cfgStateOutOfRange ∧
    refusedAs (exec (.streamwrcfg 1 0x20 2048) testState) = some .cfgIndexOutOfRange := by decide

/-- Two copies into `Cfg[1][0x55]`, as after V2 and `B7000055`. -/
def pendingThread : Thread :=
  { testThread 1 [] with pendingStreamWrCfg := [⟨⟨7, 0x20⟩, ⟨1, 0x55⟩⟩, ⟨⟨4, 0⟩, ⟨1, 0x55⟩⟩] }

/-- Thread 1 has the two copies pending. -/
def pendingState : State := { testState with threads := [thread0, pendingThread] }

theorem witness_PerformCopies :
    pendingState.thread? 1 = some pendingThread ∧
    pendingThread.pendingStreamWrCfg = ⟨⟨7, 0x20⟩, ⟨1, 0x55⟩⟩ :: [⟨⟨4, 0⟩, ⟨1, 0x55⟩⟩] := by decide

theorem witness_PerformInIssueOrder :
    pendingState.thread? 1 = some pendingThread ∧
    pendingThread.pendingStreamWrCfg =
      ⟨⟨7, 0x20⟩, ⟨1, 0x55⟩⟩ :: ⟨⟨4, 0⟩, ⟨1, 0x55⟩⟩ :: [] ∧
    (⟨⟨7, 0x20⟩, ⟨1, 0x55⟩⟩ : StreamCopy).target = (⟨⟨4, 0⟩, ⟨1, 0x55⟩⟩ : StreamCopy).target ∧
    4 < pendingState.params.nstreams ∧ 0 < pendingState.params.nstreamregs := by decide

/-- Two environment writes, one to the later copy's source and one to a stream that does not exist,
between the two performs: the later copy's value stands. -/
theorem test_perform_in_issue_order :
    (nextOf (runMoves [.cfgPerform 1, .envStep 4 0 9, .envStep 64 0 8, .cfgPerform 1] pendingState)).map
      (fun t => t.readConfig ⟨1, 0x55⟩) = some 9 := by decide

/-- Thread 0's CFGSHIFTMASK of bank 0 beside thread 1's pending copy into bank 1. -/
theorem witness_OvertakingCommutes :
    pendingState.config.Canonical ∧ pendingState.thread? pendingState.currentThread = some thread0 ∧
    pendingState.thread? 1 = some pendingThread ∧
    (⟨1, 0x55⟩ : RegAddr) ≠ ⟨thread0.tcfg.stateId, 0x40⟩ ∧
    (∀ a, pendingState.params.scratchAddr32[if 1 < 3 then 1 else pendingState.currentThread]? = some a →
      (⟨1, 0x55⟩ : RegAddr) ≠ ⟨scratchBankOf pendingState.params thread0.tcfg.stateId, a⟩) ∧
    ∃ s₁, exec (.cfgshiftmask .clearRegion .or 7 24 1 0x40) pendingState = .next s₁ :=
  ⟨by decide, by decide, by decide, by decide, fun _ _ h => absurd (congrArg RegAddr.bank h) (show (1 : Nat) ≠ 0 by decide),
    _, rfl⟩

/-- One thread with an empty program and one copy pending. -/
def onePending : State := { testState with threads := [{ testThread 0 [] with
  pendingStreamWrCfg := [⟨⟨7, 0x20⟩, ⟨0, 0x55⟩⟩] }] }

/-- After its perform step nothing is left to do. -/
def onePerformed : State := cfgPerform 0 onePending

/-- The run that performs the copy and then goes on attempting performs. -/
def performRun : Nat → State
  | 0 => onePending
  | _ + 1 => onePerformed

theorem performRun_nothing_enabled (t : Nat) : enabled (.threadStep t) onePerformed = false ∧
    enabled (.cfgPerform t) onePerformed = false := by
  cases t with
  | zero => decide
  | succ t => exact ⟨rfl, rfl⟩

/-- Every move of that run is `CfgPerform(0)`, and the run is fair. -/
theorem witness_PendingIsPerformed :
    FairRun (fun _ => .cfgPerform 0) performRun ∧
    (performRun 0).thread? 0 = some { testThread 0 [] with
      pendingStreamWrCfg := [⟨⟨7, 0x20⟩, ⟨0, 0x55⟩⟩] } ∧
    (⟨⟨7, 0x20⟩, ⟨0, 0x55⟩⟩ : StreamCopy) ∈ ([⟨⟨7, 0x20⟩, ⟨0, 0x55⟩⟩] : List StreamCopy) := by
  refine ⟨⟨fun n => ?_, fun t n => ⟨n + 1, by omega, .inr (performRun_nothing_enabled t).1⟩,
    fun t n => ⟨n + 1, by omega, .inr (performRun_nothing_enabled t).2⟩⟩, rfl, by decide⟩
  cases n with
  | zero => rfl
  | succ n => exact congrArg Host.Outcome.next (by decide : cfgPerform 0 onePerformed = onePerformed)

/-- A scheduled step of a thread with no latch. -/
theorem witness_StepRunsDecodedInstruction :
    testState.thread? 0 = some thread0 ∧ thread0.prog[thread0.pc]? = some 0xB803E140 ∧
    decode 0xB803E140 = .instr (.cfgshiftmask .clearRegion .or 7 24 1 0x40) ∧ thread0.gate = none ∧
    ({ testState with sched := [.threadStep 0] } : State).sched = .threadStep 0 :: [] := by decide

theorem witness_StepMakesScheduledMove :
    ({ testState with sched := [.cfgPerform 1] } : State).sched = .cfgPerform 1 :: [] ∧
    State.reset.sched = [] := by decide

theorem witness_PlacedWordRunsNext :
    State.reset.thread? State.reset.currentThread = some Thread.reset ∧ Thread.reset.gate = none ∧
    decode 0xB77FFFFF = .instr (.streamwrcfg 3 0x3FF 0x7FF) := by decide

/-- Held as the thread may be, its next word is refused by the decoder. -/
theorem witness_DecoderRefusesFirst :
    ({ waitingThread with prog := [0xB9000000] } : Thread).prog[0]? = some 0xB9000000 ∧
    decode 0xB9000000 = .refused .opcodeNotInScope ∧ decode 0xB7800000 = .refused .reservedBitSet := by
  decide

theorem witness_StepRefusalNames :
    step (State.reset.withFetchWord 32 0) = .refused .opcodeNotInScope := rfl

/-- A step that changes a stream register, and one that does not. -/
theorem witness_ReadOnlyState :
    (∃ s', step { testState with sched := [.envStep 63 1023 5] } = .next s' ∧
      s'.streams ≠ testState.streams) ∧
    (∃ s', step { testState with sched := [.threadStep 0] } = .next s') ∧
    testState.thread? 2 = some (testThread 2 []) :=
  ⟨⟨_, rfl, by decide⟩, ⟨_, rfl⟩, rfl⟩

/-- Thread 0's step moves thread 0 on and leaves thread 1 where it is. -/
theorem witness_PositionAdvancesByOne :
    ∃ s' th' tu', step { testState with sched := [.threadStep 0] } = .next s' ∧
      s'.thread? 0 = some th' ∧ th'.pc = 1 ∧ s'.thread? 1 = some tu' ∧ tu'.pc = 0 :=
  ⟨_, _, _, rfl, rfl, rfl, rfl, rfl⟩

theorem witness_EnvStepSetsOneRegister :
    63 < testState.params.nstreams ∧ 1023 < testState.params.nstreamregs := by decide

/-- A step of thread 0 that completes and one of thread 2 that is refused. -/
theorem witness_ThreadsArePrivate :
    (∃ s₁, perform (.threadStep 0) testState = .next s₁) ∧
    perform (.threadStep 0) { testState with threads := [testThread 0 [0]] } = .refused .opcodeNotInScope ∧
    (0 : Nat) ≠ 1 :=
  ⟨⟨_, rfl⟩, rfl, by decide⟩

/-- Program P7's start; and the same with every scratch register in the fixed bank 1. -/
theorem witness_TwoThreadsAddBoth :
    State.reset.thread? 0 = some Thread.reset ∧ State.reset.thread? 1 = some Thread.reset ∧
    (State.reset.params.scratchBank = .ownState ∧ 0 = Thread.reset.tcfg.stateId) ∧
    Thread.reset.tcfg.stateId = 0 ∧
    0 < State.reset.params.cfgNumStates ∧ 0x55 < State.reset.params.cfgStateSize ∧
    State.reset.params.scratchAddr32[0]? = some 0x30 ∧ State.reset.params.scratchAddr32[1]? = some 0x31 ∧
    0x31 < State.reset.params.cfgStateSize ∧
    (⟨0, 0x30⟩ : RegAddr) ≠ ⟨0, 0x55⟩ ∧ (⟨0, 0x31⟩ : RegAddr) ≠ ⟨0, 0x55⟩ ∧
    fixedBank.params.scratchBank = .fixed 1 ∧ 1 < fixedBank.params.cfgNumStates ∧
    (⟨1, 0x30⟩ : RegAddr) ≠ ⟨0, 0x55⟩ := by decide

theorem witness_RunFollowsSchedule :
    ∃ s', runMoves [.threadStep 1, .cfgPerform 1] { testState with sched := [.gateRelease 0] } = .next s' :=
  ⟨_, rfl⟩

/-- A final state with a latch left in a gate. -/
theorem witness_FinalStaysFinal :
    ({ testState with threads := [{ waitingThread with pc := 2 }] } : State).Final := by
  unfold State.Final; decide

/-- One thread with a latch, a CFGSHIFTMASK mark and a pending copy. -/
def busyThread : Thread :=
  { waitingThread with
    lastWasCfgShiftMask := some ⟨1, 2047⟩
    pendingStreamWrCfg := [⟨⟨63, 1023⟩, ⟨0, 0x55⟩⟩] }

/-- A state that meets the invariant with nothing at its reset value, about to perform the copy. -/
def busyState : State :=
  { testState with threads := [busyThread, busyThread], sched := [.cfgPerform 0] }

theorem busyThread_sound : busyThread.Sound Params.default where
  pc := by decide
  tcfg := ⟨by decide, by decide, by decide, by decide⟩
  gate := by
    intro l hl
    obtain rfl : waitingLatch = l := Option.some.inj hl
    exact ⟨by decide, by decide⟩
  mark := by
    intro a ha
    obtain rfl : (⟨1, 2047⟩ : RegAddr) = a := Option.some.inj ha
    decide
  pending := by
    intro c hc
    obtain rfl : c = ⟨⟨63, 1023⟩, ⟨0, 0x55⟩⟩ := List.mem_singleton.mp hc
    decide

theorem witness_StepKeepsInvariant : busyState.Inv ∧ ∃ s', step busyState = .next s' := by
  refine ⟨⟨⟨by decide, by decide, by decide, by decide, ?_, by decide, by decide, by decide,
      by decide, by decide, by decide, by decide⟩, by decide, by decide, ?_, by decide, by decide, by decide, by decide, by decide, by decide,
    by decide, by decide⟩, _, rfl⟩
  · intro b hb; cases hb
  · intro th hth
    have : th = busyThread := by simpa [busyState] using hth
    rw [this]; exact busyThread_sound

end Sys2Proof.Tests
end

section
/-! SUPPORT. The ALU of 40_cfgshiftmask.md R103 told as arithmetic on unsigned numbers: the library
gives the word operations that stay unsigned, and the two that do not (the complement, and a
difference that may borrow) are told here. -/

namespace Sys2Proof.Machine

/-- R103's `~b`. -/
theorem toNat_complement (b : Word) : (~~~b).toNat = 0xFFFFFFFF - b.toNat := BitVec.toNat_not

/-- A borrow out of bit 31 is lost: the difference is the integers' one, reduced. -/
theorem toNat_sub_eq_emod (a b : Word) :
    ((a - b).toNat : Int) = ((a.toNat : Int) - (b.toNat : Int)) % 2 ^ 32 := by
  have hb : b.toNat < 2 ^ 32 := b.isLt
  rw [BitVec.toNat_sub]
  omega

theorem alu_orNot_toNat (a b : Word) :
    (alu .orNot a b).toNat = a.toNat ||| (0xFFFFFFFF - b.toNat) := by
  rw [alu, BitVec.toNat_or, toNat_complement]

theorem alu_andNot_toNat (a b : Word) :
    (alu .andNot a b).toNat = a.toNat &&& (0xFFFFFFFF - b.toNat) := by
  rw [alu, BitVec.toNat_and, toNat_complement]

theorem alu_xorNot_toNat (a b : Word) :
    (alu .xorNot a b).toNat = a.toNat ^^^ (0xFFFFFFFF - b.toNat) := by
  rw [alu, BitVec.toNat_xor, toNat_complement]

/-- Settles O8, mode by mode: four modes are the library's word operations, three complement the
operand first, and the difference is reduced. -/
theorem aluModes : Obligations.AluModes := fun a b =>
  ⟨BitVec.toNat_or a b, BitVec.toNat_and a b, BitVec.toNat_xor a b, BitVec.toNat_add a b,
    alu_orNot_toNat a b, alu_andNot_toNat a b, alu_xorNot_toNat a b, toNat_sub_eq_emod a b⟩

end Sys2Proof.Machine
end

section
/-! SUPPORT. Which bits of a STREAMWAIT word are its block mask (42_streamwait.md R146): a field is
a window of its word, and a STREAMWAIT's `stall_res` field is the mask its word was written from. -/

namespace Sys2Proof

/-- Bit `k` of the field `w[hi:lo]` is bit `lo + k` of the word. -/
theorem testBit_bitField (w : Word) {hi lo k : Nat} (hk : k < hi - lo + 1) :
    (bitField w hi lo).testBit k = w.getLsbD (lo + k) := by
  rw [bitField, Nat.testBit_mod_two_pow, Nat.testBit_shiftRight, BitVec.testBit_toNat,
    decide_eq_true hk, Bool.true_and]

/-- R74's word, each field at its place: a target value of 11 bits carries nothing into the mask. -/
theorem encode_streamwait_toNat (sr : BlockMask) {tv : Nat} (ts : CondIndex) (ws : Fin 4)
    (htv : tv < 2048) :
    (encode (.streamwait sr tv ts ws)).toNat =
      0xA7 * 2 ^ 24 + (sr.toNat * 2 ^ 15 + tv * 2 ^ 4 + ts.code * 2 ^ 3 + ws.val) := by
  have hts := ts.code_lt
  have hsr := sr.isLt
  have hws := ws.isLt
  simp only [encode, Instr.call, MacroCall.value, Nat.shiftLeft_eq, pow_zero, mul_one]
  rw [ttOp_toNat (by decide) (by omega)]

/-- R74's `stall_res`, bits 23 to 15. -/
theorem bitField_encode_streamwait_mask (sr : BlockMask) {tv : Nat} (ts : CondIndex) (ws : Fin 4)
    (htv : tv < 2048) : bitField (encode (.streamwait sr tv ts ws)) 23 15 = sr.toNat := by
  have hts := ts.code_lt
  have hsr := sr.isLt
  have hws := ws.isLt
  rw [bitField_eq, encode_streamwait_toNat sr ts ws htv]
  omega

/-- R146's `bit 15 + k of the instruction word is B k`. -/
theorem getLsbD_encode_streamwait_mask (sr : BlockMask) {tv k : Nat} (ts : CondIndex) (ws : Fin 4)
    (htv : tv < 2048) (hk : k < 9) :
    (encode (.streamwait sr tv ts ws)).getLsbD (15 + k) = sr.getLsbD k := by
  rw [← testBit_bitField (hi := 23) _ hk, bitField_encode_streamwait_mask sr ts ws htv,
    BitVec.testBit_toNat]

end Sys2Proof

namespace Sys2Proof.Machine

/-- REG2FLOP is the one instruction of two classes, B0 and B5. -/
theorem stallBits_reg2flop (sz : SizeSel) (tg : TargetSel) (bo cx f r : Nat) :
    stallBits (.reg2flop sz tg bo cx f r) = 0x021 := by
  have hunion : stallTdma ||| stallThcon = 0x021 := by decide
  rw [stallBits, hunion]

/-- Settles O29: the class of each instruction, and the mask's place in a STREAMWAIT word. -/
theorem blockClasses : Obligations.BlockClasses :=
  ⟨stallBits_reg2flop, fun _ _ _ _ => rfl, fun _ _ _ _ _ _ => rfl, fun _ _ _ => rfl,
    fun sr _ ts ws _ htv hk => getLsbD_encode_streamwait_mask sr ts ws htv hk⟩

end Sys2Proof.Machine
end

section
/-! SUPPORT. Decoding and encoding undo each other (30_encoding.md section 7): the decoder told by
opcode, each family's word as a sum of its fields, and from these the two round trips. -/

namespace Sys2Proof

/-- The opcode is the word's top byte (30_encoding.md R71). -/
theorem bitField_opcode (w : Word) : bitField w 31 24 = w.toNat / 2 ^ 24 := by
  have hw := w.isLt
  rw [bitField_eq]
  omega

/-- A field of one bit is that bit. -/
theorem bitField_bit (w : Word) (k : Nat) : bitField w k k = 1 ↔ w.getLsbD k = true := by
  rw [bitField_eq, ← BitVec.testBit_toNat, Nat.testBit_eq_decide_div_mod_eq]
  simp

/-! ## The decoder, opcode by opcode -/

theorem decode_of_cfgshiftmask_opcode {w : Word} (h : w.toNat / 2 ^ 24 = 0xB8) :
    decode w = .instr (decodeCfgshiftmask w) := by
  have hop := (bitField_opcode w).trans h
  simp [decode, hop]

theorem decode_of_reg2flop_opcode {w : Word} (h : w.toNat / 2 ^ 24 = 0x48) :
    decode w = .instr (decodeReg2flop w) := by
  have hop := (bitField_opcode w).trans h
  simp [decode, hop]

theorem decode_of_streamwait_opcode {w : Word} (h : w.toNat / 2 ^ 24 = 0xA7) :
    decode w = if w.getLsbD 2 then .refused .reservedBitSet else .instr (decodeStreamwait w) := by
  have hop := (bitField_opcode w).trans h
  simp [decode, hop, bitField_bit]

theorem decode_of_streamwrcfg_opcode {w : Word} (h : w.toNat / 2 ^ 24 = 0xB7) :
    decode w = if w.getLsbD 23 then .refused .reservedBitSet else .instr (decodeStreamwrcfg w) := by
  have hop := (bitField_opcode w).trans h
  simp [decode, hop, bitField_bit]

theorem decode_of_foreign_opcode {w : Word} (h48 : w.toNat / 2 ^ 24 ≠ 0x48)
    (hA7 : w.toNat / 2 ^ 24 ≠ 0xA7) (hB7 : w.toNat / 2 ^ 24 ≠ 0xB7) (hB8 : w.toNat / 2 ^ 24 ≠ 0xB8) :
    decode w = .refused .opcodeNotInScope := by
  simp only [decode, bitField_opcode, if_neg h48, if_neg hA7, if_neg hB7, if_neg hB8]

/-! ## The ranges, constructor by constructor -/

theorem wellFormed_reg2flop_iff {sz : SizeSel} {tg : TargetSel} {bo cx f r : Nat} :
    (Instr.reg2flop sz tg bo cx f r).WellFormed ↔ bo < 4 ∧ cx < 4 ∧ f < 1024 ∧ r < 64 := by
  simp [Instr.WellFormed, Instr.wellFormed, and_assoc]

theorem wellFormed_streamwait_iff {sr : BlockMask} {tv : Nat} {ts : CondIndex} {ws : Fin 4} :
    (Instr.streamwait sr tv ts ws).WellFormed ↔ tv < 2048 := by
  simp [Instr.WellFormed, Instr.wellFormed]

theorem wellFormed_streamwrcfg_iff {sel : Fin 4} {ra cr : Nat} :
    (Instr.streamwrcfg sel ra cr).WellFormed ↔ ra < 1024 ∧ cr < 2048 := by
  simp [Instr.WellFormed, Instr.wellFormed]

theorem wellFormed_cfgshiftmask_iff {mm : MaskMode} {am : AluMode} {mw rot si ci : Nat} :
    (Instr.cfgshiftmask mm am mw rot si ci).WellFormed ↔ mw < 32 ∧ rot < 32 ∧ si < 4 ∧ ci < 256 := by
  simp [Instr.WellFormed, Instr.wellFormed, and_assoc]

theorem inRange_reg2flop_iff {a b c d e f : Nat} : (MacroCall.reg2flop a b c d e f).inRange = true ↔
    a < 4 ∧ b < 4 ∧ c < 4 ∧ d < 4 ∧ e < 1024 ∧ f < 64 := by
  simp [MacroCall.inRange, and_assoc]

theorem inRange_streamwait_iff {a b c d : Nat} : (MacroCall.streamwait a b c d).inRange = true ↔
    a < 512 ∧ b < 2048 ∧ c < 2 ∧ d < 4 := by
  simp [MacroCall.inRange, and_assoc]

theorem inRange_streamwrcfg_iff {a b c : Nat} : (MacroCall.streamwrcfg a b c).inRange = true ↔
    a < 4 ∧ b < 1024 ∧ c < 2048 := by
  simp [MacroCall.inRange, and_assoc]

theorem inRange_cfgshiftmask_iff {a b c d e f : Nat} :
    (MacroCall.cfgshiftmask a b c d e f).inRange = true ↔
      a < 2 ∧ b < 8 ∧ c < 32 ∧ d < 32 ∧ e < 4 ∧ f < 256 := by
  simp [MacroCall.inRange, and_assoc]

/-! ## Words as sums of their fields -/

/-- A call whose arguments fit carries nothing into the opcode, so its value is a word (R80). -/
theorem MacroCall.value_lt {c : MacroCall} (h : c.inRange = true) : c.value < 2 ^ 32 := by
  cases c <;>
    simp only [MacroCall.inRange, Bool.and_eq_true, decide_eq_true_eq] at h <;>
    simp only [MacroCall.value, ttOp, Nat.shiftLeft_eq] <;> omega

theorem toNat_of_assemble {c : MacroCall} {w : Word} (h : assemble c = some w) :
    w.toNat = c.value := by
  rw [assemble] at h
  split at h
  · next hr =>
    obtain rfl := Option.some.inj h
    rw [BitVec.toNat_ofNat, Nat.mod_eq_of_lt (MacroCall.value_lt hr)]
  · cases h

/-- A well-formed instruction's word is the value of its call, no bit lost. -/
theorem encode_toNat {i : Instr} (h : i.WellFormed) : (encode i).toNat = i.call.value :=
  toNat_of_assemble (assemble_call h)

/-! ## Decode after encode -/

/-- R83, family by family: a word that is the sum of a well-formed instruction's fields decodes to
that instruction. -/
theorem decode_eq_of_toNat_eq {i : Instr} {w : Word} (h : i.WellFormed)
    (hw : w.toNat = i.call.value) : decode w = .instr i := by
  cases i with
  | reg2flop sz tg bo cx f r =>
    have hsz := sz.code_lt
    have htg := tg.code_lt
    rw [wellFormed_reg2flop_iff] at h
    simp only [Instr.call, MacroCall.value, ttOp, Nat.shiftLeft_eq] at hw
    have h1 : bitField w 23 22 = sz.code := by rw [bitField_eq]; omega
    have h2 : bitField w 21 20 = tg.code := by rw [bitField_eq]; omega
    have h3 : bitField w 19 18 = bo := by rw [bitField_eq]; omega
    have h4 : bitField w 17 16 = cx := by rw [bitField_eq]; omega
    have h5 : bitField w 15 6 = f := by rw [bitField_eq]; omega
    have h6 : bitField w 5 0 = r := by rw [bitField_eq]; omega
    rw [decode_of_reg2flop_opcode (by omega), decodeReg2flop, h1, h2, h3, h4, h5, h6,
      SizeSel.ofCode_code, TargetSel.ofCode_code]
  | streamwait sr tv ts ws =>
    have hsr := sr.isLt
    have hts := ts.code_lt
    have hws := ws.isLt
    rw [wellFormed_streamwait_iff] at h
    simp only [Instr.call, MacroCall.value, ttOp, Nat.shiftLeft_eq] at hw
    have h1 : bitField w 23 15 = sr.toNat := by rw [bitField_eq]; omega
    have h2 : bitField w 14 4 = tv := by rw [bitField_eq]; omega
    have h3 : bitField w 3 3 = ts.code := by rw [bitField_eq]; omega
    have h4 : bitField w 1 0 = ws.val := by rw [bitField_eq]; omega
    have hres : ¬ w.getLsbD 2 = true := by rw [← bitField_bit, bitField_eq]; omega
    rw [decode_of_streamwait_opcode (by omega), if_neg hres, decodeStreamwait, h1, h2, h3, h4,
      CondIndex.ofCode_code, BitVec.ofNat_toNat, BitVec.setWidth_eq, Fin.ofNat_val_eq_self]
  | streamwrcfg sel ra cr =>
    have hsel := sel.isLt
    rw [wellFormed_streamwrcfg_iff] at h
    simp only [Instr.call, MacroCall.value, ttOp, Nat.shiftLeft_eq] at hw
    have h1 : bitField w 22 21 = sel.val := by rw [bitField_eq]; omega
    have h2 : bitField w 20 11 = ra := by rw [bitField_eq]; omega
    have h3 : bitField w 10 0 = cr := by rw [bitField_eq]; omega
    have hres : ¬ w.getLsbD 23 = true := by rw [← bitField_bit, bitField_eq]; omega
    rw [decode_of_streamwrcfg_opcode (by omega), if_neg hres, decodeStreamwrcfg, h1, h2, h3,
      Fin.ofNat_val_eq_self]
  | cfgshiftmask mm am mw rot si ci =>
    have hmm := mm.code_lt
    have ham := am.code_lt
    rw [wellFormed_cfgshiftmask_iff] at h
    simp only [Instr.call, MacroCall.value, ttOp, Nat.shiftLeft_eq] at hw
    have h1 : bitField w 23 23 = mm.code := by rw [bitField_eq]; omega
    have h2 : bitField w 22 20 = am.code := by rw [bitField_eq]; omega
    have h3 : bitField w 19 15 = mw := by rw [bitField_eq]; omega
    have h4 : bitField w 14 10 = rot := by rw [bitField_eq]; omega
    have h5 : bitField w 9 8 = si := by rw [bitField_eq]; omega
    have h6 : bitField w 7 0 = ci := by rw [bitField_eq]; omega
    rw [decode_of_cfgshiftmask_opcode (by omega), decodeCfgshiftmask, h1, h2, h3, h4, h5, h6,
      MaskMode.ofCode_code, AluMode.ofCode_code]

theorem decode_encode {i : Instr} (h : i.WellFormed) : decode (encode i) = .instr i :=
  decode_eq_of_toNat_eq h (encode_toNat h)

/-- The instruction a call writes, each code read as its choice: the inverse of `Instr.call` on
calls that assemble. -/
def MacroCall.instr : MacroCall → Instr
  | .reg2flop sizeSel targetSel byteOffset contextId2 flopIndex regIndex =>
      .reg2flop (.ofCode sizeSel) (.ofCode targetSel) byteOffset contextId2 flopIndex regIndex
  | .streamwait stallRes targetValue targetSel waitStreamSel =>
      .streamwait (BitVec.ofNat 9 stallRes) targetValue (.ofCode targetSel) (Fin.ofNat 4 waitStreamSel)
  | .streamwrcfg streamIdSel streamRegAddr cfgReg =>
      .streamwrcfg (Fin.ofNat 4 streamIdSel) streamRegAddr cfgReg
  | .cfgshiftmask maskMode aluMode maskWidth rotateAmt scratchIndex cfgIndex =>
      .cfgshiftmask (.ofCode maskMode) (.ofCode aluMode) maskWidth rotateAmt scratchIndex cfgIndex

/-- A call in range is written by the well-formed instruction of just its arguments. -/
theorem MacroCall.instr_spec {c : MacroCall} (h : c.inRange = true) :
    c.instr.WellFormed ∧ c.instr.call = c := by
  cases c with
  | reg2flop a b c d e f =>
    obtain ⟨ha, hb, hrest⟩ := inRange_reg2flop_iff.mp h
    refine ⟨wellFormed_reg2flop_iff.mpr hrest, ?_⟩
    rw [instr, Instr.call, SizeSel.code_ofCode ha, TargetSel.code_ofCode hb]
  | streamwait a b c d =>
    obtain ⟨ha, hb, hc, hd⟩ := inRange_streamwait_iff.mp h
    refine ⟨wellFormed_streamwait_iff.mpr hb, ?_⟩
    rw [instr, Instr.call, CondIndex.code_ofCode hc, BitVec.toNat_ofNat, Nat.mod_eq_of_lt ha,
      Fin.val_ofNat, Nat.mod_eq_of_lt hd]
  | streamwrcfg a b c =>
    obtain ⟨ha, hrest⟩ := inRange_streamwrcfg_iff.mp h
    refine ⟨wellFormed_streamwrcfg_iff.mpr hrest, ?_⟩
    rw [instr, Instr.call, Fin.val_ofNat, Nat.mod_eq_of_lt ha]
  | cfgshiftmask a b c d e f =>
    obtain ⟨ha, hb, hrest⟩ := inRange_cfgshiftmask_iff.mp h
    refine ⟨wellFormed_cfgshiftmask_iff.mpr hrest, ?_⟩
    rw [instr, Instr.call, MaskMode.code_ofCode ha, AluMode.code_ofCode hb]

theorem assemble_eq_none_iff {c : MacroCall} : assemble c = none ↔ ¬ c.inRange = true := by
  rw [assemble]
  split <;> simp_all

/-- What assembles is a word that decodes to the well-formed instruction of the call's arguments. -/
theorem decode_of_assemble {c : MacroCall} {w : Word} (h : assemble c = some w) :
    ∃ i : Instr, i.WellFormed ∧ i.call = c ∧ decode w = .instr i := by
  have hr : c.inRange = true := by
    by_contra hr
    rw [assemble_eq_none_iff.mpr hr] at h
    cases h
  obtain ⟨hwf, hcall⟩ := MacroCall.instr_spec hr
  exact ⟨c.instr, hwf, hcall, decode_eq_of_toNat_eq hwf (by rw [hcall, toNat_of_assemble h])⟩

/-- Settles O1: both round trips start from a word that is the sum of its fields, and a call is
refused exactly when some argument misses its field's range. -/
theorem decodeOfEncode : Obligations.DecodeOfEncode := by
  refine ⟨fun _ => decode_encode, fun _ _ h => ⟨toNat_of_assemble h, decode_of_assemble h⟩,
    fun _ _ _ _ _ _ => ?_, fun _ _ _ _ => ?_, fun _ _ _ => ?_, fun _ _ _ _ _ _ => ?_⟩
  · rw [assemble_eq_none_iff, inRange_reg2flop_iff]
  · rw [assemble_eq_none_iff, inRange_streamwait_iff]
  · rw [assemble_eq_none_iff, inRange_streamwrcfg_iff]
  · rw [assemble_eq_none_iff, inRange_cfgshiftmask_iff]

/-! ## Encode after decode -/

/-- A bit that is not set, as arithmetic. -/
theorem div_mod_two_of_bit_clear {w : Word} {k : Nat} (h : ¬ w.getLsbD k = true) :
    w.toNat / 2 ^ k % 2 = 0 := by
  rw [← bitField_bit, bitField_eq] at h
  simp only [Nat.sub_self, Nat.zero_add, pow_one] at h
  omega

/-- A field is below 2 to its width. -/
theorem bitField_lt (w : Word) (hi lo : Nat) : bitField w hi lo < 2 ^ (hi - lo + 1) :=
  Nat.mod_lt _ (by positivity)

theorem decodeReg2flop_spec {w : Word} (h : w.toNat / 2 ^ 24 = 0x48) :
    (decodeReg2flop w).WellFormed ∧ w.toNat = (decodeReg2flop w).call.value := by
  refine ⟨wellFormed_reg2flop_iff.mpr ⟨bitField_lt .., bitField_lt .., bitField_lt .., bitField_lt ..⟩, ?_⟩
  simp only [decodeReg2flop, Instr.call, MacroCall.value, ttOp, Nat.shiftLeft_eq]
  rw [SizeSel.code_ofCode (bitField_lt ..), TargetSel.code_ofCode (bitField_lt ..)]
  simp only [bitField_eq]
  omega

theorem decodeStreamwait_spec {w : Word} (h : w.toNat / 2 ^ 24 = 0xA7) (hres : ¬ w.getLsbD 2 = true) :
    (decodeStreamwait w).WellFormed ∧ w.toNat = (decodeStreamwait w).call.value := by
  have hbit := div_mod_two_of_bit_clear hres
  refine ⟨wellFormed_streamwait_iff.mpr (bitField_lt ..), ?_⟩
  simp only [decodeStreamwait, Instr.call, MacroCall.value, ttOp, Nat.shiftLeft_eq]
  rw [CondIndex.code_ofCode (bitField_lt ..), BitVec.toNat_ofNat, Fin.val_ofNat]
  simp only [bitField_eq]
  omega

theorem decodeStreamwrcfg_spec {w : Word} (h : w.toNat / 2 ^ 24 = 0xB7) (hres : ¬ w.getLsbD 23 = true) :
    (decodeStreamwrcfg w).WellFormed ∧ w.toNat = (decodeStreamwrcfg w).call.value := by
  have hbit := div_mod_two_of_bit_clear hres
  refine ⟨wellFormed_streamwrcfg_iff.mpr ⟨bitField_lt .., bitField_lt ..⟩, ?_⟩
  simp only [decodeStreamwrcfg, Instr.call, MacroCall.value, ttOp, Nat.shiftLeft_eq]
  rw [Fin.val_ofNat]
  simp only [bitField_eq]
  omega

theorem decodeCfgshiftmask_spec {w : Word} (h : w.toNat / 2 ^ 24 = 0xB8) :
    (decodeCfgshiftmask w).WellFormed ∧ w.toNat = (decodeCfgshiftmask w).call.value := by
  refine ⟨wellFormed_cfgshiftmask_iff.mpr
    ⟨bitField_lt .., bitField_lt .., bitField_lt .., bitField_lt ..⟩, ?_⟩
  simp only [decodeCfgshiftmask, Instr.call, MacroCall.value, ttOp, Nat.shiftLeft_eq]
  rw [MaskMode.code_ofCode (bitField_lt ..), AluMode.code_ofCode (bitField_lt ..)]
  simp only [bitField_eq]
  omega

/-- What a word decodes to is well formed, and the word is the sum of its fields. -/
theorem toNat_eq_of_decode_eq {w : Word} {i : Instr} (h : decode w = .instr i) :
    i.WellFormed ∧ w.toNat = i.call.value := by
  by_cases h48 : w.toNat / 2 ^ 24 = 0x48
  · rw [decode_of_reg2flop_opcode h48] at h
    obtain rfl := Decoded.instr.inj h
    exact decodeReg2flop_spec h48
  by_cases hA7 : w.toNat / 2 ^ 24 = 0xA7
  · rw [decode_of_streamwait_opcode hA7] at h
    split at h
    · cases h
    · next hres =>
      obtain rfl := Decoded.instr.inj h
      exact decodeStreamwait_spec hA7 hres
  by_cases hB7 : w.toNat / 2 ^ 24 = 0xB7
  · rw [decode_of_streamwrcfg_opcode hB7] at h
    split at h
    · cases h
    · next hres =>
      obtain rfl := Decoded.instr.inj h
      exact decodeStreamwrcfg_spec hB7 hres
  by_cases hB8 : w.toNat / 2 ^ 24 = 0xB8
  · rw [decode_of_cfgshiftmask_opcode hB8] at h
    obtain rfl := Decoded.instr.inj h
    exact decodeCfgshiftmask_spec hB8
  · rw [decode_of_foreign_opcode h48 hA7 hB7 hB8] at h
    cases h

/-- Settles O2: a word that decodes is the sum of the fields of a well-formed instruction, and so
is that instruction's own word. -/
theorem encodeOfDecode : Obligations.EncodeOfDecode := by
  intro w i h
  obtain ⟨hwf, hw⟩ := toNat_eq_of_decode_eq h
  exact ⟨hwf, BitVec.eq_of_toNat_eq (by rw [encode_toNat hwf, hw])⟩

/-! ## What the decoder refuses, and the source's own words -/

/-- Settles O3, opcode by opcode. -/
theorem decoderRefusalsExact : Obligations.DecoderRefusalsExact := by
  intro w
  by_cases h48 : w.toNat / 2 ^ 24 = 0x48
  · rw [decode_of_reg2flop_opcode h48, h48]
    simp
  by_cases hA7 : w.toNat / 2 ^ 24 = 0xA7
  · rw [decode_of_streamwait_opcode hA7, hA7]
    cases w.getLsbD 2 <;> simp
  by_cases hB7 : w.toNat / 2 ^ 24 = 0xB7
  · rw [decode_of_streamwrcfg_opcode hB7, hB7]
    cases w.getLsbD 23 <;> simp
  by_cases hB8 : w.toNat / 2 ^ 24 = 0xB8
  · rw [decode_of_cfgshiftmask_opcode hB8, hB8]
    simp
  · rw [decode_of_foreign_opcode h48 hA7 hB7 hB8]
    simp [-Nat.reducePow, h48, hA7, hB7, hB8]

/-- Settles O4: the decoder and the values of calls, evaluated on the words of the spec. -/
theorem specWordsDecode : Obligations.SpecWordsDecode := by
  unfold Obligations.SpecWordsDecode
  decide

/-- Settles O5: the usage example is well formed, and its call's value is the source's sum. -/
theorem usageExampleWord : Obligations.UsageExampleWord := by
  intro A hA
  have hwf : (Instr.cfgshiftmask .keep .add 31 0 3 A).WellFormed :=
    wellFormed_cfgshiftmask_iff.mpr ⟨by decide, by decide, by decide, hA⟩
  have hval : (Instr.cfgshiftmask .keep .add 31 0 3 A).call.value = 0xB8BF8300 + A := by
    simp only [Instr.call, MacroCall.value, ttOp, MaskMode.code, AluMode.code, Nat.shiftLeft_eq]
    omega
  refine ⟨by rw [encode_toNat hwf, hval], decode_eq_of_toNat_eq hwf ?_⟩
  rw [BitVec.toNat_ofNat, hval]
  omega

end Sys2Proof
end

section
/-! SUPPORT. The invariant of the state, update by update: which conditions each named operation
needs to keep it, then each move of the machine (70_reset_and_hazards.md R207). -/

namespace Sys2Proof.Machine

/-! ## The operations on the state -/

section updates
variable {s : State} (h : s.Inv)
include h

theorem State.Inv.thread_sound {t : Nat} {th : Thread} (hth : s.thread? t = some th) :
    th.Sound s.params :=
  h.threads th (List.mem_of_getElem? hth)

theorem State.Inv.setThread {t : Nat} {th : Thread} (hth : th.Sound s.params) :
    (s.setThread t th).Inv :=
  { h with
    current := by rw [setThread_nthreads]; exact h.current
    scratch := by rw [setThread_nthreads]; exact h.scratch
    threads := fun x hx => (List.mem_or_eq_of_mem_set hx).elim (h.threads x) fun hxt => hxt ▸ hth
    tdmaRange := by rw [setThread_nthreads]; exact h.tdmaRange }

theorem State.Inv.setCurrentThread {t : Nat} (ht : t < s.nthreads) :
    State.Inv { s with currentThread := t } :=
  { h with current := ht }

theorem State.Inv.writeConfig {a : RegAddr} (ha : InConfig s.params a) (v : Word) :
    (s.writeConfig a v).Inv :=
  { h with
    configForm := RegFile.write_canonical h.configForm a v
    configRange := RegFile.write_within h.configRange ha v }

theorem State.Inv.writeStream {a : RegAddr} (ha : InStreams s.params a) (v : Word) :
    (s.writeStream a v).Inv :=
  { h with
    streamsForm := RegFile.write_canonical h.streamsForm a v
    streamsRange := RegFile.write_within h.streamsRange ha v }

theorem State.Inv.writeFlop {a : RegAddr} (ha : a.bank < 4 ∧ a.index < s.params.nflop) (v : Word) :
    (s.writeFlop a v).Inv :=
  { h with
    flopsForm := RegFile.write_canonical h.flopsForm a v
    flopsRange := RegFile.write_within h.flopsRange ha v }

/-- A thread may go on to its next instruction while its program has one. -/
theorem State.Inv.retire {th : Thread} {mark : Option RegAddr} (hth : th.Sound s.params)
    (hpc : th.pc < th.prog.length) (hmark : ∀ a, mark = some a → InConfig s.params a) :
    (s.retire th mark).Inv :=
  h.setThread { hth with pc := hpc, mark := hmark }

theorem State.Inv.dropAction : (dropAction s).Inv := by
  rw [dropAction_eq]
  exact { h with }

end updates

/-! ## The four instructions -/

/-- The bank TargetSel names is its own code, when TargetSel 3 is not refused (41_reg2flop.md R126). -/
theorem flopBank?_eq_some_iff {p : Params} {tg : TargetSel} {b : Nat} :
    flopBank? p tg = some b ↔ (tg ≠ .overrideCtx ∨ p.target3 = .bank3) ∧ b = tg.code := by
  cases tg with
  | overrideCtx => cases ht : p.target3 <;> simp [flopBank?, ht, TargetSel.code, eq_comm]
  | tdma => simp [flopBank?, TargetSel.code, eq_comm]
  | localRegs => simp [flopBank?, TargetSel.code, eq_comm]
  | addrCntrs => simp [flopBank?, TargetSel.code, eq_comm]

theorem flopBank?_lt {p : Params} {tg : TargetSel} {b : Nat} (h : flopBank? p tg = some b) : b < 4 :=
  (flopBank?_eq_some_iff.mp h).2 ▸ tg.code_lt

theorem State.Inv.reg2flopMove {s : State} (h : s.Inv) {sz : SizeSel} {b bo f r : Nat} (hb : b < 4)
    (hr : Reg2flopInRange s.params sz bo f r) : (reg2flopMove sz b bo f r s).Inv := by
  cases sz with
  | bits32 => exact h.writeFlop ⟨hb, hr.1⟩ _
  | bits16 => exact (h.writeFlop ⟨hb, hr.2.1⟩ _).writeFlop ⟨hb, hr.2.1⟩ _
  | bits8 => exact h.writeFlop ⟨hb, hr.1⟩ _
  | bytes16 =>
    obtain ⟨hlast, -, -⟩ := hr
    have hin : ∀ k, k ≤ 3 → b < 4 ∧ f + k < s.params.nflop := fun k hk => ⟨hb, by omega⟩
    exact (((h.writeFlop (hin 0 (by decide)) _).writeFlop (hin 1 (by decide)) _).writeFlop
      (hin 2 (by decide)) _).writeFlop (hin 3 (by decide)) _

/-- R142: the latched mask is never zero. -/
theorem latchedBlockMask_ne_zero (sr : BlockMask) : latchedBlockMask sr ≠ 0 := by
  rw [latchedBlockMask]
  split
  · decide
  · assumption

theorem streamwaitLatch_shaped (tcfg : ThreadConfig) (sr : BlockMask) (tv : Nat) (ts : CondIndex)
    (ws : Fin 4) : (streamwaitLatch tcfg sr tv ts ws).Shaped where
  oneCondition := by cases ts <;> simp [streamwaitLatch, conditionMaskOf, CondIndex.code]
  blocks := latchedBlockMask_ne_zero sr

/-- An instruction that completes keeps the invariant, when the issuing thread's program is not at
its end. -/
theorem exec_keeps_inv {i : Instr} {s t : State} (hi : s.Inv)
    (hpc : ∀ th, s.thread? s.currentThread = some th → th.pc < th.prog.length)
    (h : exec i s = .next t) : t.Inv := by
  cases i with
  | reg2flop sz tg bo cx f r =>
    obtain ⟨th, b, hth, hb, hr, rfl⟩ := (execReg2flop_next_iff (cx := cx)).mp h
    have hmove := hi.reg2flopMove (flopBank?_lt hb) hr
    rw [reg2flopMove_eq] at hmove ⊢
    exact hmove.retire (hi.thread_sound hth) (hpc th hth) (by simp)
  | streamwait sr tv ts ws =>
    obtain ⟨th, hth, rfl⟩ := execStreamwait_next_iff.mp h
    refine hi.retire { hi.thread_sound hth with gate := ?_ } (hpc th hth) (by simp)
    rintro _ ⟨⟩
    exact streamwaitLatch_shaped ..
  | streamwrcfg sel ra cr =>
    obtain ⟨th, hth, hstream, hreg, hstate, hindex, rfl⟩ := execStreamwrcfg_next_iff.mp h
    have hsound := hi.thread_sound hth
    refine hi.retire { hsound with pending := fun c hc => ?_ } (hpc th hth) (by simp)
    rcases List.mem_append.mp hc with hc | hc
    · exact hsound.pending c hc
    · obtain rfl := List.mem_singleton.mp hc
      exact ⟨⟨hstream, hreg⟩, hstate, hindex⟩
  | cfgshiftmask mm am mw rot si ci =>
    obtain ⟨th, a, hth, hstate, -, hindex, -, rfl⟩ := execCfgshiftmask_next_iff.mp h
    refine (hi.writeConfig ⟨hstate, hindex⟩ _).retire (hi.thread_sound hth) (hpc th hth) ?_
    rintro _ ⟨⟩
    exact ⟨hstate, hindex⟩

/-! ## The moves -/

theorem threadStep_keeps_inv {t : Nat} {s s' : State} (hi : s.Inv)
    (h : threadStep t s = .next s') : s'.Inv := by
  rcases threadStep_cases t s with hs | ⟨e, hs⟩ | hs | ⟨th, w, i, g, hth, hw, -, -, hg, hs⟩ <;>
    rw [hs] at h
  · cases h
    exact hi
  · cases h
  · cases h
  · have hlt : t < s.nthreads := (List.getElem?_eq_some_iff.mp hth).1
    have hsound := hi.thread_sound hth
    have hshaped : ∀ l, g = some l → l.Shaped := by
      rintro l rfl
      exact hg.elim (fun hgl => hsound.gate l hgl.symm) nofun
    have hgate : ({ th with gate := g } : Thread).Sound s.params := { hsound with gate := hshaped }
    have hstart := (hi.setCurrentThread hlt).setThread (t := t) hgate
    refine exec_keeps_inv hstart (fun th' hth' => ?_) h
    obtain rfl : { th with gate := g } = th' := by
      have := setThread_thread?_self { s with currentThread := t } t { th with gate := g } hth
      exact Option.some.inj (this.symm.trans hth')
    exact (List.getElem?_eq_some_iff.mp hw).1

theorem cfgPerform_keeps_inv {s : State} (hi : s.Inv) (t : Nat) : (cfgPerform t s).Inv := by
  rcases cfgPerform_cases t s with hs | ⟨th, c, rest, hth, hp, hs⟩ <;> rw [hs]
  · exact hi
  · have hsound := hi.thread_sound hth
    have hmem : ∀ d ∈ c :: rest, InStreams s.params d.source ∧ InConfig s.params d.target :=
      hp ▸ hsound.pending
    exact (hi.writeConfig (hmem c (List.mem_cons_self ..)).2 _).setThread
      { hsound with pending := fun d hd => hmem d (List.mem_cons_of_mem _ hd) }

theorem gateRelease_keeps_inv {s : State} (hi : s.Inv) (t : Nat) : (gateRelease t s).Inv := by
  rcases gateRelease_cases t s with hs | ⟨th, hth, -, hs⟩ <;> rw [hs]
  · exact hi
  · exact hi.setThread { hi.thread_sound hth with gate := nofun }

theorem envStep_keeps_inv {s : State} (hi : s.Inv) (stream reg : Nat) (v : Word) :
    (envStep stream reg v s).Inv := by
  rcases envStep_cases stream reg v s with hs | ⟨h1, h2, hs⟩ <;> rw [hs]
  · exact hi
  · exact hi.writeStream ⟨h1, h2⟩ v

theorem perform_keeps_inv {a : Action} {s s' : State} (hi : s.Inv) (h : perform a s = .next s') :
    s'.Inv := by
  cases a with
  | threadStep t => exact threadStep_keeps_inv hi h
  | cfgPerform t =>
    cases h
    exact cfgPerform_keeps_inv hi t
  | gateRelease t =>
    cases h
    exact gateRelease_keeps_inv hi t
  | envStep stream reg v =>
    cases h
    exact envStep_keeps_inv hi stream reg v

/-- Settles O58: every move keeps the invariant, whichever one the schedule chose. -/
theorem stepKeepsInvariant : Obligations.StepKeepsInvariant :=
  fun _ _ hi h => perform_keeps_inv hi.dropAction h

/-! ## Reset -/

theorem params_default_bounded : Params.default.Bounded where
  numStates := by decide
  scratchThree := by decide
  scratchInBank := by decide
  scratchDistinct := by decide
  scratchBank := nofun
  thcon := by decide
  phaseReg := by decide
  numMsgsReg := by decide
  cfgStateSize := by decide
  ngpr := by decide
  nflop := by decide
  nstreamregs := by decide

theorem thread_reset_sound : Thread.reset.Sound Params.default where
  pc := by decide
  tcfg := ⟨by decide, by decide, by decide, by decide⟩
  gate := nofun
  mark := nofun
  pending := nofun

/-- Every thread at reset is `Thread.reset`. -/
theorem eq_reset_of_mem {th : Thread} (h : th ∈ State.reset.threads) : th = Thread.reset := by
  simpa [State.reset] using h

/-- Settles O59: the reset parameters are in bounds, every thread is sound, every file is empty. -/
theorem resetMeetsInvariant : Obligations.ResetMeetsInvariant where
  params := params_default_bounded
  current := by decide
  scratch := by decide
  threads _ hth := eq_reset_of_mem hth ▸ thread_reset_sound
  tdmaForm := by decide
  tdmaRange := nofun
  configForm := by decide
  configRange := nofun
  flopsForm := by decide
  flopsRange := nofun
  streamsForm := by decide
  streamsRange := nofun

/-- Settles O60: every thread at reset has the launch values of R36. -/
theorem resetIsLaunch : Obligations.ResetIsLaunch := by
  refine ⟨⟨fun th hth => ?_, fun th hth => ?_, fun th hth => ?_⟩, by decide⟩ <;>
    rw [eq_reset_of_mem hth] <;> decide

end Sys2Proof.Machine
end

section
/-! SUPPORT. The words CFGSHIFTMASK and REG2FLOP compute, bit by bit: the rotation of 00_scope.md R8,
the mask, operand and region of 40_cfgshiftmask.md R102, the table of R104, and the bytes of a flop
(20_memory.md R52). -/

namespace Sys2Proof.Machine

/-! ## Rotation -/

/-- Bit `i` of a word rotated right comes from bit `i + a`, counted round the word. -/
theorem getLsbD_rotr32 (v : Word) (a : Nat) {i : Nat} (hi : i < 32) :
    (rotr32 v a).getLsbD i = v.getLsbD ((i + a) % 32) := by
  rw [rotr32_eq_rotateRight, BitVec.getLsbD_rotateRight, Bool.cond_decide]
  split
  · next hlow =>
    congr 1
    omega
  · next hhigh =>
    rw [decide_eq_true hi, Bool.true_and]
    congr 1
    omega

theorem rotr32_of_mod_eq_zero (v : Word) {a : Nat} (h : a % 32 = 0) : rotr32 v a = v := by
  refine BitVec.eq_of_getLsbD_eq fun i hi => ?_
  rw [getLsbD_rotr32 v a hi]
  congr 1
  omega

theorem rotr32_eq_rotateLeft (v : Word) (a : Nat) :
    rotr32 v a = v.rotateLeft ((32 - a % 32) % 32) := by
  refine BitVec.eq_of_getLsbD_eq fun i hi => ?_
  rw [getLsbD_rotr32 v a hi, BitVec.getLsbD_rotateLeft, Bool.cond_decide]
  split
  · next hlow =>
    congr 1
    omega
  · next hhigh =>
    rw [decide_eq_true hi, Bool.true_and]
    congr 1
    omega

/-- Settles O6: the formula is the definition, and the rest is where each bit comes from. -/
theorem rotateRight : Obligations.RotateRight := fun v a =>
  ⟨by rw [rotr32, BitVec.toNat_ofNat], fun _ hi => getLsbD_rotr32 v a hi,
    rotr32_of_mod_eq_zero v, rotr32_eq_rotateLeft v a⟩

/-! ## Mask, operand and region -/

/-- R102's second form of the mask. -/
theorem maskVal_eq_ushiftRight {mw : Nat} (h : mw < 32) :
    maskVal mw = (0xFFFFFFFF : Word) >>> (31 - mw) := by
  have hones : (0xFFFFFFFF : Word) = BitVec.allOnes 32 := by decide
  refine BitVec.eq_of_getLsbD_eq fun i hi => ?_
  rw [getLsbD_maskVal h, BitVec.getLsbD_ushiftRight, hones, BitVec.getLsbD_allOnes, decide_eq_decide]
  omega

theorem getLsbD_cfgRegion {mw : Nat} (h : mw < 32) (rot : Nat) {i : Nat} (hi : i < 32) :
    (cfgRegion mw rot).getLsbD i = decide ((i + rot) % 32 ≤ mw) := by
  rw [cfgRegion, getLsbD_rotr32 _ _ hi, getLsbD_maskVal h]

theorem getLsbD_cfgOperand {mw : Nat} (h : mw < 32) (rot : Nat) (scratch : Word) {i : Nat}
    (hi : i < 32) : (cfgOperand mw rot scratch).getLsbD i =
      (decide ((i + rot) % 32 ≤ mw) && scratch.getLsbD ((i + rot) % 32)) := by
  rw [cfgOperand, getLsbD_rotr32 _ _ hi, BitVec.getLsbD_and, getLsbD_maskVal h, Bool.and_comm]

/-- The operand has no bits outside the region. -/
theorem cfgOperand_and_cfgRegion {mw : Nat} (h : mw < 32) (rot : Nat) (scratch : Word) :
    cfgOperand mw rot scratch &&& cfgRegion mw rot = cfgOperand mw rot scratch := by
  refine BitVec.eq_of_getLsbD_eq fun i hi => ?_
  rw [BitVec.getLsbD_and, getLsbD_cfgOperand h rot scratch hi, getLsbD_cfgRegion h rot hi]
  cases decide ((i + rot) % 32 ≤ mw) <;> simp

/-- Outside a set that holds all of a word's bits the word is 0. -/
theorem and_not_eq_zero_of_and_eq {S R : Word} (h : S &&& R = S) : S &&& ~~~R = 0 := by
  rw [← h, BitVec.and_assoc, BitVec.and_not_self]
  exact BitVec.and_zero

/-- Settles O7, each law read off the bits of the mask, the operand and the region. -/
theorem maskAndRotation : Obligations.MaskAndRotation := by
  intro mw scratch hmw
  refine ⟨maskVal_toNat hmw, maskVal_eq_ushiftRight hmw,
    fun rot => ⟨rfl, rfl, and_not_eq_zero_of_and_eq (cfgOperand_and_cfgRegion hmw rot scratch)⟩,
    fun p hp j hj => ?_, fun j hj => ?_⟩
  · have hplace : (p + j) % 32 < 32 := Nat.mod_lt _ (by decide)
    have hback : ((p + j) % 32 + (32 - p) % 32) % 32 = j := by omega
    rw [getLsbD_cfgOperand hmw _ _ hplace, getLsbD_cfgRegion hmw _ hplace, hback]
    simp [hj]
  · rw [getLsbD_cfgOperand hmw 0 scratch hj, Nat.add_zero, Nat.mod_eq_of_lt hj]

/-! ## The table of MaskMode and AluMode -/

section cleared
variable {C R S : Word} (hSR : S &&& R = S)
include hSR

/-- A cleared target and the operand share no bit. -/
theorem cleared_and_operand : (C &&& ~~~R) &&& S = 0 := by
  rw [BitVec.and_assoc, BitVec.and_comm (~~~R), and_not_eq_zero_of_and_eq hSR]
  exact BitVec.and_zero

theorem cleared_add_operand : (C &&& ~~~R) + S = (C &&& ~~~R) ||| S :=
  BitVec.add_eq_or_of_and_eq_zero _ _ (cleared_and_operand hSR)

/-- The bits of the operand lie in the region. -/
theorem getLsbD_region_of_operand {i : Nat} (h : S.getLsbD i = true) : R.getLsbD i = true := by
  rw [← hSR, BitVec.getLsbD_and, Bool.and_eq_true] at h
  exact h.2

theorem cleared_xor_operand : (C &&& ~~~R) ^^^ S = (C &&& ~~~R) ||| S := by
  refine BitVec.eq_of_getLsbD_eq fun i hi => ?_
  have hin := getLsbD_region_of_operand hSR (i := i)
  simp only [BitVec.getLsbD_xor, BitVec.getLsbD_or, BitVec.getLsbD_and, BitVec.getLsbD_not, hi]
  cases hS : S.getLsbD i <;> simp_all

theorem cleared_orNot_operand : (C &&& ~~~R) ||| ~~~S = ~~~S := by
  refine BitVec.eq_of_getLsbD_eq fun i hi => ?_
  have hin := getLsbD_region_of_operand hSR (i := i)
  simp only [BitVec.getLsbD_or, BitVec.getLsbD_and, BitVec.getLsbD_not, hi]
  cases hS : S.getLsbD i <;> simp_all

theorem cleared_andNot_operand : (C &&& ~~~R) &&& ~~~S = C &&& ~~~R := by
  refine BitVec.eq_of_getLsbD_eq fun i hi => ?_
  have hin := getLsbD_region_of_operand hSR (i := i)
  simp only [BitVec.getLsbD_and, BitVec.getLsbD_not, hi]
  cases hS : S.getLsbD i <;> simp_all

theorem cleared_xorNot_operand :
    (C &&& ~~~R) ^^^ ~~~S = (~~~C &&& ~~~R) ||| (~~~S &&& R) := by
  refine BitVec.eq_of_getLsbD_eq fun i hi => ?_
  have hin := getLsbD_region_of_operand hSR (i := i)
  simp only [BitVec.getLsbD_xor, BitVec.getLsbD_or, BitVec.getLsbD_and, BitVec.getLsbD_not, hi]
  cases hR : R.getLsbD i <;> cases hS : S.getLsbD i <;> simp_all

end cleared

/-- The full mask keeps every bit. -/
theorem maskVal_full : maskVal 31 = BitVec.allOnes 32 := by decide

theorem cfgRegion_full (rot : Nat) : cfgRegion 31 rot = 0xFFFFFFFF := by
  have hones : (0xFFFFFFFF : Word) = BitVec.allOnes 32 := by decide
  refine BitVec.eq_of_getLsbD_eq fun i hi => ?_
  rw [getLsbD_cfgRegion (by decide) rot hi, hones, BitVec.getLsbD_allOnes, decide_eq_decide]
  omega

theorem cfgOperand_full (rot : Nat) (scratch : Word) :
    cfgOperand 31 rot scratch = rotr32 scratch rot := by
  rw [cfgOperand, maskVal_full, BitVec.and_allOnes]

/-- Settles O9: under MaskMode 1 a row is its definition, under MaskMode 0 the operand lies in the
region the target has lost. -/
theorem maskModeTable : Obligations.MaskModeTable := by
  intro mw rot scratch C hmw R S
  have hSR : S &&& R = S := cfgOperand_and_cfgRegion hmw rot scratch
  exact ⟨rfl, cleared_xor_operand hSR, cleared_add_operand hSR, cleared_and_operand hSR,
    cleared_orNot_operand hSR, cleared_andNot_operand hSR, cleared_xorNot_operand hSR, rfl,
    rfl, rfl, rfl, rfl, rfl, rfl, rfl, rfl,
    fun hfull => by subst hfull; exact ⟨cfgRegion_full rot, cfgOperand_full rot scratch⟩⟩

/-! ## Bytes -/

theorem byteOf_toNat (w : Word) (k : Nat) : (byteOf w k).toNat = w.toNat / 2 ^ (8 * k) % 256 := by
  rw [byteOf, BitVec.toNat_setWidth, BitVec.toNat_ushiftRight, Nat.shiftRight_eq_div_pow]

/-- A byte write is read back, and the other bytes are as they were. -/
theorem byteOf_setByte (w : Word) (k : Nat) (b : Byte) {j : Nat} (hj : j < 4) :
    byteOf (setByte w k b) j = if j = k then b else byteOf w j := by
  refine BitVec.eq_of_getLsbD_eq fun i hi => ?_
  rw [getLsbD_byteOf, getLsbD_setByte w k b (by omega), decide_eq_true hi, Bool.true_and]
  by_cases hjk : j = k
  · subst hjk
    rw [if_pos (by omega), if_pos rfl]
    congr 1
    omega
  · rw [if_neg (by omega), if_neg hjk, getLsbD_byteOf, decide_eq_true hi, Bool.true_and]

/-- Settles O10: what a byte is, and what a byte write leaves. -/
theorem byteOfFlop : Obligations.ByteOfFlop := fun w k b _ =>
  ⟨byteOf_toNat w k, fun _ hj => byteOf_setByte w k b hj⟩

end Sys2Proof.Machine
end

section
/-! SUPPORT. What a register reads after each update of the state, and what every instruction that
completes leaves alone, whichever of the four it is. -/

namespace Sys2Proof.Machine

@[simp] theorem retire_readConfig (s : State) (th : Thread) (m : Option RegAddr) (a : RegAddr) :
    (s.retire th m).readConfig a = s.readConfig a := rfl
@[simp] theorem retire_readFlop (s : State) (th : Thread) (m : Option RegAddr) (a : RegAddr) :
    (s.retire th m).readFlop a = s.readFlop a := rfl

@[simp] theorem readConfig_writeConfig_self (s : State) (a : RegAddr) (v : Word) :
    (s.writeConfig a v).readConfig a = v :=
  RegFile.read_write_self ..

theorem readConfig_writeConfig_ne {a b : RegAddr} (h : b ≠ a) (s : State) (v : Word) :
    (s.writeConfig a v).readConfig b = s.readConfig b :=
  RegFile.read_write_ne h ..

@[simp] theorem readFlop_writeFlop_self (s : State) (a : RegAddr) (v : Word) :
    (s.writeFlop a v).readFlop a = v :=
  RegFile.read_write_self ..

theorem readFlop_writeFlop_ne {a b : RegAddr} (h : b ≠ a) (s : State) (v : Word) :
    (s.writeFlop a v).readFlop b = s.readFlop b :=
  RegFile.read_write_ne h ..

theorem setThread_setThread (s : State) (t : Nat) (x y : Thread) :
    (s.setThread t x).setThread t y = s.setThread t y := by
  simp [State.setThread, List.set_set]

theorem setThread_comm {t u : Nat} (h : t ≠ u) (s : State) (x y : Thread) :
    (s.setThread t x).setThread u y = (s.setThread u y).setThread t x := by
  simp [State.setThread, List.set_comm _ _ h]

/-- Replacing one thread's record changes nothing outside it. -/
theorem sameOutside_setThread (s : State) (t : Nat) (th : Thread) :
    SameOutside t s (s.setThread t th) where
  params := rfl
  sched := rfl
  tick := rfl
  currentThread := rfl
  nthreads := setThread_nthreads ..
  others _ hu := setThread_thread?_ne _ _ _ hu

/-- An instruction that completes changes nothing outside its thread and the register files. -/
theorem exec_sameOutside {i : Instr} {s t : State} (h : exec i s = .next t) :
    SameOutside s.currentThread s t := by
  obtain ⟨th, th', -, hthreads, -, -, -, hparams, hsched, htick, hcurrent, -, -⟩ := exec_next h
  exact
    { params := hparams
      sched := hsched
      tick := htick
      currentThread := hcurrent
      nthreads := by rw [State.nthreads, hthreads, List.length_set]; rfl
      others := fun u hu => by
        rw [State.thread?, hthreads, List.getElem?_set_ne (Ne.symm hu)]; rfl }

end Sys2Proof.Machine
end

section
/-! SUPPORT. CFGSHIFTMASK (40_cfgshiftmask.md): the three things it can answer, each with its
condition, and what the statements about it read off them. -/

namespace Sys2Proof.Machine

/-! ## The selected scratch register -/

theorem scratchEntry_eq (cur k : Nat) : scratchEntry cur k = if k < 3 then k else cur := rfl

/-- R101: ScratchIndex 3 selects the entry of the thread's own number. -/
theorem scratchEntry_three (cur : Nat) : scratchEntry cur 3 = cur := rfl

theorem scratchEntry_of_lt {cur : Nat} (h : cur < 3) : scratchEntry cur cur = cur := if_pos h

theorem scratchAddr?_eq_none_iff {p : Params} {cur k : Nat} :
    scratchAddr? p cur k = none ↔ p.nscratch ≤ scratchEntry cur k ∨
      ∃ a, p.scratchAddr32[scratchEntry cur k]? = some a ∧ p.cfgStateSize ≤ a := by
  rw [Option.eq_none_iff_forall_ne_some]
  simp only [ne_eq, scratchAddr?_eq_some, not_and, Nat.not_lt]
  cases h : p.scratchAddr32[scratchEntry cur k]? with
  | none => simpa [Params.nscratch] using h
  | some b =>
    have hlt : ¬ p.nscratch ≤ scratchEntry cur k :=
      Nat.not_le.mpr (List.getElem?_eq_some_iff.mp h).1
    simp [hlt]

/-- `SCRATCH_BANK` (10_state.md R24), either setting told by one bank. -/
theorem scratchBankOf_eq {p : Params} {sid bank : Nat}
    (h : (p.scratchBank = .ownState ∧ bank = sid) ∨ p.scratchBank = .fixed bank) :
    scratchBankOf p sid = bank := by
  rcases h with ⟨h, rfl⟩ | h <;> rw [scratchBankOf, h]

/-! ## What it answers -/

section answers
variable {s : State} {th : Thread} (mm : MaskMode) (am : AluMode) (mw rot : Nat) {si ci : Nat}
  (hth : s.thread? s.currentThread = some th)
include hth

theorem exec_cfgshiftmask_of_badState (h : s.params.cfgNumStates ≤ th.tcfg.stateId ∨
    s.params.cfgNumStates ≤ scratchBankOf s.params th.tcfg.stateId) :
    exec (.cfgshiftmask mm am mw rot si ci) s = .refused .cfgStateOutOfRange := by
  simp only [exec, execCfgshiftmask, hth, if_pos h]

theorem exec_cfgshiftmask_of_badIndex (hst : th.tcfg.stateId < s.params.cfgNumStates)
    (hbank : scratchBankOf s.params th.tcfg.stateId < s.params.cfgNumStates)
    (h : s.params.cfgStateSize ≤ ci ∨ scratchAddr? s.params s.currentThread si = none) :
    exec (.cfgshiftmask mm am mw rot si ci) s = .refused .cfgIndexOutOfRange := by
  have hrange : ¬(s.params.cfgNumStates ≤ th.tcfg.stateId ∨
      s.params.cfgNumStates ≤ scratchBankOf s.params th.tcfg.stateId) := by omega
  simp only [exec, execCfgshiftmask, hth, if_neg hrange]
  split
  · rfl
  · next hci => rw [h.resolve_left hci]

theorem exec_cfgshiftmask_of_inRange {bank a : Nat}
    (hst : th.tcfg.stateId < s.params.cfgNumStates)
    (hbank : scratchBankOf s.params th.tcfg.stateId = bank) (hbk : bank < s.params.cfgNumStates)
    (hci : ci < s.params.cfgStateSize)
    (ha : s.params.scratchAddr32[scratchEntry s.currentThread si]? = some a)
    (hal : a < s.params.cfgStateSize) :
    exec (.cfgshiftmask mm am mw rot si ci) s =
      .next ((s.writeConfig ⟨th.tcfg.stateId, ci⟩ (cfgshiftmaskResult mm am mw rot
        (s.readConfig ⟨bank, a⟩) (s.readConfig ⟨th.tcfg.stateId, ci⟩))).retire th
          (some ⟨th.tcfg.stateId, ci⟩)) := by
  subst hbank
  exact execCfgshiftmask_next_iff.mpr
    ⟨th, a, hth, hst, hbk, hci, scratchAddr?_eq_some.mpr ⟨ha, hal⟩, rfl⟩

end answers

/-! ## Its statements -/

theorem maskVal_eq_ofNat (mw : Nat) : maskVal mw = BitVec.ofNat 32 (2 ^ (mw + 1) - 1) := by
  rw [maskVal, Nat.shiftLeft_eq, pow_succ, Nat.mul_comm]

theorem cfgBase_eq_ite (mm : MaskMode) (region old : Word) :
    cfgBase mm region old = if mm = .clearRegion then old &&& ~~~region else old := by
  cases mm <;> rfl

/-- Settles O11: the completing answer, with the operands written out as R100 does. (The plain name
is the model's function.) -/
theorem cfgshiftmaskResult_holds : Obligations.CfgshiftmaskResult := by
  intro s th mm am mw rot si ci a bank hth hst hbank hbk hci ha hal
  have hb := scratchBankOf_eq hbank
  refine ⟨_, exec_cfgshiftmask_of_inRange mm am mw rot hth hst hb hbk hci ha hal, ?_,
    retire_thread?_self _ _ _ hth⟩
  rw [retire_readConfig, readConfig_writeConfig_self, cfgshiftmaskResult, cfgBase_eq_ite, cfgRegion,
    cfgOperand, maskVal_eq_ofNat]

/-- Settles O12: the next state is one Config write and the thread's record. -/
theorem cfgshiftmaskFrame : Obligations.CfgshiftmaskFrame := by
  intro s t th mm am mw rot si ci hth h
  have hout := exec_sameOutside h
  obtain ⟨th', a, hth', -, -, -, -, rfl⟩ := execCfgshiftmask_next_iff.mp h
  obtain rfl : th = th' := Option.some.inj (hth.symm.trans hth')
  refine ⟨hout, rfl, rfl, rfl, fun b hb => ?_, _, retire_thread?_self _ _ _ hth, rfl, rfl, rfl, rfl⟩
  rw [retire_readConfig, readConfig_writeConfig_ne hb]

/-- The full mask, unrotated, gives the ALU both whole words. -/
theorem cfgshiftmaskResult_keep_full (am : AluMode) (scratch old : Word) :
    cfgshiftmaskResult .keep am 31 0 scratch old = alu am old scratch := by
  rw [cfgshiftmaskResult, cfgOperand_full, rotr32_of_mod_eq_zero scratch (by decide), cfgBase]

/-- Settles O13: the scratch register read is the target, so one old value is both operands. -/
theorem targetIsScratch : Obligations.TargetIsScratch := by
  intro s th mm am mw rot si ci hth hst hbank hci ha v
  have hexec := fun mm am mw rot =>
    exec_cfgshiftmask_of_inRange mm am mw rot hth hst hbank hst hci ha hci
  refine ⟨⟨_, hexec mm am mw rot, ?_⟩, ⟨_, hexec .keep .add 31 0, ?_⟩,
    ⟨_, hexec .keep .xor 31 0, ?_⟩⟩ <;>
    rw [retire_readConfig, readConfig_writeConfig_self]
  · rw [cfgshiftmaskResult_keep_full]
    exact BitVec.toNat_add v v
  · rw [cfgshiftmaskResult_keep_full]
    exact BitVec.xor_self

/-- Settles O14: the state id, then the indices, then completion; the three exclude each other. -/
theorem cfgshiftmaskRefusals : Obligations.CfgshiftmaskRefusals := by
  intro s th mm am mw rot si ci hth hbank
  rw [← scratchEntry_eq, ← scratchAddr?_eq_none_iff]
  by_cases hst : s.params.cfgNumStates ≤ th.tcfg.stateId
  · rw [exec_cfgshiftmask_of_badState mm am mw rot hth (.inl hst)]
    simp [hst]
  · have hst' := Nat.lt_of_not_le hst
    by_cases hidx : s.params.cfgStateSize ≤ ci ∨ scratchAddr? s.params s.currentThread si = none
    · rw [exec_cfgshiftmask_of_badIndex mm am mw rot hth hst' (hbank hst') hidx]
      simp [hst, hst', hidx]
    · obtain ⟨a, ha⟩ := Option.ne_none_iff_exists'.mp fun h => hidx (.inr h)
      obtain ⟨hsel, hal⟩ := scratchAddr?_eq_some.mp ha
      rw [exec_cfgshiftmask_of_inRange mm am mw rot hth hst' rfl (hbank hst')
        (Nat.lt_of_not_le fun h => hidx (.inl h)) hsel hal]
      simp [hst, hidx]

/-- Settles O15: the two instructions select the same entry, and there is none past `NSCRATCH`. -/
theorem scratchIndexThree : Obligations.ScratchIndexThree := by
  intro s th mm am mw rot ci hth
  refine ⟨fun hlt => ?_, fun hpast hst hbank => ?_⟩
  · have hsame : scratchAddr? s.params s.currentThread 3 =
        scratchAddr? s.params s.currentThread s.currentThread := by
      simp only [scratchAddr?, scratchEntry_three, scratchEntry_of_lt hlt]
    simp only [exec, execCfgshiftmask, hsame]
  · exact exec_cfgshiftmask_of_badIndex mm am mw rot hth hst hbank
      (.inr (scratchAddr?_eq_none_iff.mpr (.inl hpast)))

/-- A full-width ADD of the thread's own scratch entry: the target takes the sum, and neither the
other registers nor the other threads change. -/
theorem exec_fullAdd {s : State} {t : Nat} {th : Thread} {ci a bank : Nat}
    (hth : s.thread? t = some th) (hst : th.tcfg.stateId < s.params.cfgNumStates)
    (hbank : scratchBankOf s.params th.tcfg.stateId = bank) (hbk : bank < s.params.cfgNumStates)
    (hci : ci < s.params.cfgStateSize) (ha : s.params.scratchAddr32[t]? = some a)
    (hal : a < s.params.cfgStateSize) :
    ∃ s', exec (.cfgshiftmask .keep .add 31 0 3 ci) { s with currentThread := t } = .next s' ∧
      s'.params = s.params ∧ (∀ u, u ≠ t → s'.thread? u = s.thread? u) ∧
      s'.readConfig ⟨th.tcfg.stateId, ci⟩ =
        s.readConfig ⟨th.tcfg.stateId, ci⟩ + s.readConfig ⟨bank, a⟩ ∧
      ∀ b, b ≠ ⟨th.tcfg.stateId, ci⟩ → s'.readConfig b = s.readConfig b := by
  refine ⟨_, exec_cfgshiftmask_of_inRange (s := { s with currentThread := t }) .keep .add 31 0
    hth hst hbank hbk hci ha hal, rfl, fun u hu => setThread_thread?_ne _ _ _ hu, ?_, fun b hb => ?_⟩
  · rw [retire_readConfig, readConfig_writeConfig_self, cfgshiftmaskResult_keep_full]
    rfl
  · rw [retire_readConfig, readConfig_writeConfig_ne hb]
    rfl

/-- Settles O55: the first ADD touches neither the second thread's record nor its scratch register,
so the second adds to what the first has left. -/
theorem twoThreadsAddBoth : Obligations.TwoThreadsAddBoth := by
  rintro s t u tht thu ci at' au sid bank htu ht hu hbank hbk rfl hsid hst hci hat hau hatl haul
    - hneu
  have hb := scratchBankOf_eq hbank
  obtain ⟨s₁, hs₁, hparams, hothers, hsum₁, hkept⟩ := exec_fullAdd ht hst hb hbk hci hat hatl
  rw [← hparams] at hst hb hbk hci hau haul
  rw [← hothers u htu.symm] at hu
  rw [← hsid] at hst hb
  obtain ⟨s₂, hs₂, -, -, hsum₂, -⟩ := exec_fullAdd hu hst hb hbk hci hau haul
  refine ⟨s₁, s₂, hs₁, hs₂, ?_⟩
  rw [hsid] at hsum₂
  rw [hsum₂, hsum₁, hkept _ hneu, BitVec.toNat_add, BitVec.toNat_add, Nat.mod_add_mod]

end Sys2Proof.Machine
end

section
/-! SUPPORT. REG2FLOP (41_reg2flop.md): the four things it can answer, each with its condition, and
what its writes leave in the flops, size by size. -/

namespace Sys2Proof.Machine

/-! ## What it answers -/

/-- The ranges of `Reg2flopInRange`, told as R129 tells them. -/
theorem not_reg2flopInRange_iff {p : Params} {sz : SizeSel} {bo f r : Nat}
    (hbo : ¬(sz = .bits16 ∧ 2 ≤ bo)) : ¬ Reg2flopInRange p sz bo f r ↔
      (sz = .bytes16 ∧ (p.nflop ≤ f + 3 ∨ 1021 ≤ f ∨ p.ngpr ≤ 4 * (r / 4) + 3)) ∨
        (sz ≠ .bytes16 ∧ (p.nflop ≤ f ∨ p.ngpr ≤ r)) := by
  cases sz <;> simp [Reg2flopInRange, tdmaGroup_eq] at hbo ⊢ <;> omega

section answers
variable {s : State} {th : Thread} {sz : SizeSel} {tg : TargetSel} {bo f r b : Nat} (cx : Nat)

theorem flopBank?_eq_none_iff {p : Params} :
    flopBank? p tg = none ↔ tg = .overrideCtx ∧ p.target3 = .refuse := by
  rw [Option.eq_none_iff_forall_ne_some]
  simp only [ne_eq, flopBank?_eq_some_iff, not_and]
  cases p.target3 <;> cases tg <;> simp

variable (hth : s.thread? s.currentThread = some th)
include hth

theorem exec_reg2flop_of_noBank (hb : flopBank? s.params tg = none) :
    exec (.reg2flop sz tg bo cx f r) s = .refused .reg2FlopTarget3 := by
  simp only [exec, execReg2flop, hth, hb]

theorem exec_reg2flop_of_badOffset (hb : flopBank? s.params tg = some b) (hbo : 2 ≤ bo) :
    exec (.reg2flop .bits16 tg bo cx f r) s = .refused .reg2FlopByteOffset := by
  simp only [exec, execReg2flop, hth, hb, if_pos hbo]

/-- With a bank, and in 16-bit mode a ByteOffset, the ranges are all that is left to test. -/
theorem exec_reg2flop_of_badIndex (hb : flopBank? s.params tg = some b)
    (hbo : ¬(sz = .bits16 ∧ 2 ≤ bo)) (hr : ¬ Reg2flopInRange s.params sz bo f r) :
    exec (.reg2flop sz tg bo cx f r) s = .refused .reg2FlopIndexOutOfRange := by
  rcases (not_reg2flopInRange_iff hbo).mp hr with ⟨rfl, hbad⟩ | ⟨hsz, hbad⟩
  · have hbad' : s.params.nflop ≤ f + 3 ∨ 1023 < f + 3 ∨ s.params.ngpr ≤ tdmaGroup r + 3 := by
      rw [tdmaGroup_eq]
      omega
    simp only [exec, execReg2flop, hth, hb, if_pos hbad']
  · cases sz with
    | bytes16 => exact absurd rfl hsz
    | bits16 =>
      have hoff : ¬ 2 ≤ bo := fun h => hbo ⟨rfl, h⟩
      simp only [exec, execReg2flop, hth, hb, if_neg hoff, if_pos hbad]
    | bits32 => simp only [exec, execReg2flop, hth, hb, if_pos hbad]
    | bits8 => simp only [exec, execReg2flop, hth, hb, if_pos hbad]

theorem exec_reg2flop_of_inRange (hb : flopBank? s.params tg = some b)
    (hr : Reg2flopInRange s.params sz bo f r) :
    exec (.reg2flop sz tg bo cx f r) s = .next ((reg2flopMove sz b bo f r s).retire th none) :=
  (execReg2flop_next_iff (cx := cx)).mpr ⟨th, b, hth, hb, hr, rfl⟩

end answers

/-! ## What its writes leave -/

section move
variable {sz : SizeSel} {b bo f r : Nat} {s : State}

/-- Its writes reach no thread's record. -/
theorem reg2flopMove_retire_thread? {th : Thread} (hth : s.thread? s.currentThread = some th) :
    ((reg2flopMove sz b bo f r s).retire th none).thread? s.currentThread =
      some { th with pc := th.pc + 1, lastWasCfgShiftMask := none } := by
  rw [reg2flopMove_eq]
  exact retire_thread?_self _ _ _ hth

/-- How many flops a size writes (41_reg2flop.md R121 to R124). -/
abbrev flopCount (sz : SizeSel) : Nat := if sz = .bytes16 then 4 else 1

/-- Every flop but the ones its size writes in its bank is as it was. -/
theorem readFlop_reg2flopMove_ne {a : RegAddr}
    (h : ¬(a.bank = b ∧ f ≤ a.index ∧ a.index < f + flopCount sz)) :
    (reg2flopMove sz b bo f r s).readFlop a = s.readFlop a := by
  have hne : ∀ k, k < flopCount sz → a ≠ ⟨b, f + k⟩ := by
    rintro k hk rfl
    exact h ⟨rfl, Nat.le_add_right .., Nat.add_lt_add_left hk f⟩
  cases sz with
  | bits32 => exact readFlop_writeFlop_ne (hne 0 (by decide)) ..
  | bits16 =>
    exact (readFlop_writeFlop_ne (hne 0 (by decide)) ..).trans
      (readFlop_writeFlop_ne (hne 0 (by decide)) ..)
  | bits8 => exact readFlop_writeFlop_ne (hne 0 (by decide)) ..
  | bytes16 =>
    simp only [reg2flopMove, moveBytes16]
    rw [readFlop_writeFlop_ne (hne 3 (by decide)), readFlop_writeFlop_ne (hne 2 (by decide)),
      readFlop_writeFlop_ne (hne 1 (by decide))]
    exact readFlop_writeFlop_ne (hne 0 (by decide)) ..

/-- R124: flop `f + i` takes register `i` of the aligned group. -/
theorem readFlop_moveBytes16 {i : Nat} (hi : i < 4) :
    (moveBytes16 b f r s).readFlop ⟨b, f + i⟩ = s.readTdma (4 * (r / 4) + i) := by
  have hne : ∀ j k, j ≠ k → (⟨b, f + j⟩ : RegAddr) ≠ ⟨b, f + k⟩ := by
    intro j k hjk heq
    have := congrArg RegAddr.index heq
    simp only at this
    omega
  rw [← tdmaGroup_eq, moveBytes16]
  interval_cases i
  · rw [readFlop_writeFlop_ne (hne 0 3 (by decide)), readFlop_writeFlop_ne (hne 0 2 (by decide)),
      readFlop_writeFlop_ne (hne 0 1 (by decide))]
    exact readFlop_writeFlop_self ..
  · rw [readFlop_writeFlop_ne (hne 1 3 (by decide)), readFlop_writeFlop_ne (hne 1 2 (by decide)),
      readFlop_writeFlop_self]
  · rw [readFlop_writeFlop_ne (hne 2 3 (by decide)), readFlop_writeFlop_self]
  · rw [readFlop_writeFlop_self]

end move

/-- The bits of a word put together from two halves. -/
theorem toNat_eq_of_halves {w : Word} {lo hi : Nat} (hlo : lo < 2 ^ 16) (hhi : hi < 2 ^ 16)
    (hbits : ∀ j, j < 32 → w.getLsbD j = if j < 16 then lo.testBit j else hi.testBit (j - 16)) :
    w.toNat = hi * 2 ^ 16 + lo := by
  refine Nat.eq_of_testBit_eq fun j => ?_
  rw [Nat.mul_comm, Nat.testBit_two_pow_mul_add _ hlo, BitVec.testBit_toNat]
  by_cases hj : j < 32
  · exact hbits j hj
  · have hzero : hi < 2 ^ (j - 16) :=
      lt_of_lt_of_le hhi (Nat.pow_le_pow_right (by decide) (by omega))
    rw [BitVec.getLsbD_of_ge w j (by omega), if_neg (by omega), Nat.testBit_lt_two_pow hzero]

/-- Bit `j` of a flop after a 16-bit move to half `bo`. -/
theorem getLsbD_moveBits16 {bo : Nat} (w src : Word) {j : Nat} (hj : j < 32) :
    (setByte (setByte w (bo * 2) (byteOf src 0)) (bo * 2 + 1) (byteOf src 1)).getLsbD j =
      if 16 * bo ≤ j ∧ j < 16 * bo + 16 then src.getLsbD (j - 16 * bo) else w.getLsbD j := by
  rw [getLsbD_setByte _ _ _ hj, getLsbD_setByte _ _ _ hj, getLsbD_byteOf, getLsbD_byteOf]
  by_cases hhi : 16 * bo + 8 ≤ j ∧ j < 16 * bo + 16
  · rw [if_pos (by omega), if_pos (by omega), decide_eq_true (by omega), Bool.true_and]
    congr 1
    omega
  · rw [if_neg (by omega)]
    by_cases hlo : 16 * bo ≤ j ∧ j < 16 * bo + 8
    · rw [if_pos (by omega), if_pos (by omega), decide_eq_true (by omega), Bool.true_and]
      congr 1
      omega
    · rw [if_neg (by omega), if_neg (by omega)]

theorem readFlop_moveBits16 (a : RegAddr) (bo : Nat) (src : Word) (s : State) :
    (moveBits16 a bo src s).readFlop a =
      setByte (setByte (s.readFlop a) (bo * 2) (byteOf src 0)) (bo * 2 + 1) (byteOf src 1) := by
  rw [moveBits16, State.writeFlopByte, readFlop_writeFlop_self, State.writeFlopByte,
    readFlop_writeFlop_self]

/-- R122 on ByteOffset 0: the low half is replaced. -/
theorem toNat_moveBits16_low (a : RegAddr) (src : Word) (s : State) :
    ((moveBits16 a 0 src s).readFlop a).toNat =
      (s.readFlop a).toNat / 2 ^ 16 * 2 ^ 16 + src.toNat % 2 ^ 16 := by
  have hw := (s.readFlop a).isLt
  refine toNat_eq_of_halves (Nat.mod_lt _ (by decide)) (by omega) fun j hj => ?_
  rw [readFlop_moveBits16, getLsbD_moveBits16 _ _ hj, Nat.testBit_mod_two_pow,
    Nat.testBit_div_two_pow, BitVec.testBit_toNat, BitVec.testBit_toNat]
  by_cases hlow : j < 16
  · rw [if_pos (by omega), if_pos hlow, decide_eq_true hlow, Bool.true_and]
    rfl
  · rw [if_neg (by omega), if_neg hlow]
    congr 1
    omega

/-- R122 on ByteOffset 1: the high half is replaced. -/
theorem toNat_moveBits16_high (a : RegAddr) (src : Word) (s : State) :
    ((moveBits16 a 1 src s).readFlop a).toNat =
      src.toNat % 2 ^ 16 * 2 ^ 16 + (s.readFlop a).toNat % 2 ^ 16 := by
  refine toNat_eq_of_halves (Nat.mod_lt _ (by decide)) (Nat.mod_lt _ (by decide)) fun j hj => ?_
  rw [readFlop_moveBits16, getLsbD_moveBits16 _ _ hj, Nat.testBit_mod_two_pow,
    Nat.testBit_mod_two_pow, BitVec.testBit_toNat, BitVec.testBit_toNat]
  by_cases hlow : j < 16
  · rw [if_neg (by omega), if_pos hlow, decide_eq_true hlow, Bool.true_and]
  · rw [if_pos (by omega), if_neg hlow, decide_eq_true (by omega), Bool.true_and]

theorem readFlop_moveBits8 (a : RegAddr) (bo : Nat) (src : Word) (s : State) :
    (moveBits8 a bo src s).readFlop a = setByte (s.readFlop a) bo (byteOf src 0) := by
  rw [moveBits8, State.writeFlopByte, readFlop_writeFlop_self]

/-! ## Its statements -/

/-- Settles O16: the bank is the reader's own number, or 0 for every reader. -/
theorem generalRegisterBanks : Obligations.GeneralRegisterBanks := by
  intro s i
  refine ⟨fun hper => ⟨?_, fun a v ha => ?_⟩, fun hshared => ⟨?_, fun t => ?_⟩⟩
  · rw [State.readTdma, State.tdmaBank, if_pos hper]
  · refine RegFile.read_write_ne (fun heq => ha ?_) ..
    rw [← heq]
    exact if_pos hper
  · simp [State.readTdma, State.tdmaBank, hshared]
  · simp [State.readTdma, State.tdmaBank, hshared]

/-- Settles O17: a whole write of the flop. -/
theorem reg2flop32 : Obligations.Reg2flop32 := by
  intro s th tg bo cx f r b hth hb hf hr
  exact ⟨_, exec_reg2flop_of_inRange cx hth hb (sz := .bits32) ⟨hf, hr⟩,
    readFlop_writeFlop_self .., reg2flopMove_retire_thread? hth⟩

/-- Settles O18: two byte writes, told as one half of the flop. -/
theorem reg2flop16 : Obligations.Reg2flop16 := by
  intro s th tg bo cx f r b hth hb
  refine ⟨exec_reg2flop_of_badOffset cx hth hb, fun hbo hf hr =>
    ⟨_, exec_reg2flop_of_inRange cx hth hb (sz := .bits16) ⟨hbo, hf, hr⟩, ?_, ?_,
      reg2flopMove_retire_thread? hth⟩⟩
  · rintro rfl
    exact toNat_moveBits16_low ..
  · rintro rfl
    exact toNat_moveBits16_high ..

/-- Settles O19: one byte write, told bit by bit. -/
theorem reg2flop8 : Obligations.Reg2flop8 := by
  intro s th tg bo cx f r b hth hb hbo hf hr
  refine ⟨_, exec_reg2flop_of_inRange cx hth hb (sz := .bits8) ⟨hf, hr⟩, fun j hj => ?_,
    fun j hj hout => ?_, reg2flopMove_retire_thread? hth⟩ <;>
    rw [retire_readFlop, reg2flopMove, readFlop_moveBits8, getLsbD_setByte _ _ _ (by omega)]
  · rw [if_pos (by omega), getLsbD_byteOf, decide_eq_true (by omega), Bool.true_and]
    congr 1
    omega
  · rw [if_neg (by omega)]

/-- Settles O20: four writes to four different flops. -/
theorem reg2flop16Bytes : Obligations.Reg2flop16Bytes := by
  intro s th tg bo cx f r b hth hb
  refine ⟨fun hlast => exec_reg2flop_of_badIndex cx hth hb (by simp) ?_, fun hf hmax hr =>
    ⟨_, exec_reg2flop_of_inRange cx hth hb (sz := .bytes16) ⟨hf, by omega, by rwa [tdmaGroup_eq]⟩,
      fun i hi => ?_, reg2flopMove_retire_thread? hth⟩⟩
  · simp only [Reg2flopInRange]
    omega
  · rw [retire_readFlop, reg2flopMove, readFlop_moveBytes16 hi]

/-- Settles O21: the next state is the flops its size writes and the thread's record. -/
theorem reg2flopFrame : Obligations.Reg2flopFrame := by
  intro s t th sz tg bo cx f r hth h
  have hout := exec_sameOutside h
  obtain ⟨th', b, hth', hb, -, rfl⟩ := (execReg2flop_next_iff (cx := cx)).mp h
  obtain rfl : th = th' := Option.some.inj (hth.symm.trans hth')
  refine ⟨hout, ?_, ?_, ?_, fun a ha => ?_, reg2flopMove_retire_thread? hth⟩
  · rw [reg2flopMove_eq]; rfl
  · rw [reg2flopMove_eq]; rfl
  · rw [reg2flopMove_eq]; rfl
  · rw [retire_readFlop]
    refine readFlop_reg2flopMove_ne fun hin => ha ?_
    rw [hb, ← hin.1]
    exact ⟨rfl, hin.2⟩

/-- Settles O22: `exec` passes `ContextId_2` to nothing, and two sizes pass on no ByteOffset. -/
theorem reg2flopUnusedFields : Obligations.Reg2flopUnusedFields := by
  refine ⟨fun _ _ _ _ _ _ _ _ => rfl, fun s sz tg bo bo' cx f r hsz => ?_, fun w hw => ?_⟩
  · rcases hsz with rfl | rfl <;> rfl
  · exact ⟨_, _, _, _, _, _, decode_of_reg2flop_opcode hw, bitField_eq .., bitField_eq ..⟩

/-- Settles O23: the bank is TargetSel's code, and the flops written are of that bank. -/
theorem reg2flopTargets : Obligations.Reg2flopTargets := by
  intro s th sz bo cx f r hth
  refine ⟨fun tg htg => flopBank?_eq_some_iff.mpr ⟨htg, rfl⟩, fun tg t h a hchanged => ?_,
    fun href => exec_reg2flop_of_noBank cx hth (flopBank?_eq_none_iff.mpr ⟨rfl, href⟩),
    fun tg htg hbo hf hmax hr =>
      ⟨_, exec_reg2flop_of_inRange cx hth (flopBank?_eq_some_iff.mpr ⟨htg, rfl⟩) ?_⟩⟩
  · obtain ⟨th', b, -, hb, -, rfl⟩ := (execReg2flop_next_iff (cx := cx)).mp h
    by_contra hbank
    refine hchanged (readFlop_reg2flopMove_ne fun hin => hbank ?_)
    rw [hin.1, (flopBank?_eq_some_iff.mp hb).2]
  · have hreg : r < s.params.ngpr := by omega
    cases sz with
    | bits32 => exact ⟨by omega, hreg⟩
    | bits16 => exact ⟨hbo, by omega, hreg⟩
    | bits8 => exact ⟨by omega, hreg⟩
    | bytes16 => exact ⟨hf, by omega, by rwa [tdmaGroup_eq]⟩

/-- Settles O24: the bank, then the ByteOffset, then the ranges, then completion; the four exclude
each other. -/
theorem reg2flopRefusals : Obligations.Reg2flopRefusals := by
  intro s th sz tg bo cx f r hth badTarget badOffset badIndex
  by_cases htarget : badTarget
  · rw [exec_reg2flop_of_noBank cx hth (flopBank?_eq_none_iff.mpr htarget)]
    simp [htarget]
  obtain ⟨b, hb⟩ := Option.ne_none_iff_exists'.mp fun h => htarget (flopBank?_eq_none_iff.mp h)
  by_cases hoffset : badOffset
  · obtain ⟨rfl, hbo⟩ := id hoffset
    rw [exec_reg2flop_of_badOffset cx hth hb hbo]
    simp [htarget, hoffset]
  by_cases hindex : badIndex
  · rw [exec_reg2flop_of_badIndex cx hth hb hoffset ((not_reg2flopInRange_iff hoffset).mpr hindex)]
    simp [htarget, hoffset, hindex]
  · have hr := not_not.mp fun h => hindex ((not_reg2flopInRange_iff hoffset).mp h)
    rw [exec_reg2flop_of_inRange cx hth hb hr]
    simp [htarget, hoffset, hindex]

end Sys2Proof.Machine
end

section
/-! SUPPORT. STREAMWRCFG's issue and STREAMWAIT (43_streamwrcfg.md, 42_streamwait.md): what each can
answer, with its condition. -/

namespace Sys2Proof.Machine

/-! ## STREAMWRCFG -/

section answers
variable {s : State} {th : Thread} {sel : Fin 4} {ra cr : Nat}
  (hth : s.thread? s.currentThread = some th)
include hth

theorem exec_streamwrcfg_of_badStream
    (h : s.params.nstreams ≤ th.tcfg.bankSel[sel] ∨ s.params.nstreamregs ≤ ra) :
    exec (.streamwrcfg sel ra cr) s = .refused .streamIndexOutOfRange := by
  simp only [exec, execStreamwrcfg, hth, if_pos h]

theorem exec_streamwrcfg_of_badState
    (h : ¬(s.params.nstreams ≤ th.tcfg.bankSel[sel] ∨ s.params.nstreamregs ≤ ra))
    (hst : s.params.cfgNumStates ≤ th.tcfg.stateId) :
    exec (.streamwrcfg sel ra cr) s = .refused .cfgStateOutOfRange := by
  simp only [exec, execStreamwrcfg, hth, if_neg h, if_pos hst]

theorem exec_streamwrcfg_of_badIndex
    (h : ¬(s.params.nstreams ≤ th.tcfg.bankSel[sel] ∨ s.params.nstreamregs ≤ ra))
    (hst : ¬ s.params.cfgNumStates ≤ th.tcfg.stateId) (hcr : s.params.cfgStateSize ≤ cr) :
    exec (.streamwrcfg sel ra cr) s = .refused .cfgIndexOutOfRange := by
  simp only [exec, execStreamwrcfg, hth, if_neg h, if_neg hst, if_pos hcr]

theorem exec_streamwrcfg_of_inRange
    (h : ¬(s.params.nstreams ≤ th.tcfg.bankSel[sel] ∨ s.params.nstreamregs ≤ ra))
    (hst : ¬ s.params.cfgNumStates ≤ th.tcfg.stateId) (hcr : ¬ s.params.cfgStateSize ≤ cr) :
    exec (.streamwrcfg sel ra cr) s = .next (s.retire { th with
      pendingStreamWrCfg := th.pendingStreamWrCfg ++
        [⟨⟨th.tcfg.bankSel[sel], ra⟩, ⟨th.tcfg.stateId, cr⟩⟩] } none) := by
  simp only [exec, execStreamwrcfg, hth, if_neg h, if_neg hst, if_neg hcr]

end answers

/-- Settles O37: the issue is the thread's record alone. -/
theorem streamwrcfgIssues : Obligations.StreamwrcfgIssues := by
  intro s th sel ra cr hth hstream hreg hst hcr
  exact ⟨_, exec_streamwrcfg_of_inRange hth (by omega) (by omega) (by omega),
    retire_thread?_self _ _ _ hth⟩

/-- Settles O38: the next state is the thread's record, with its program, ThreadConfig and latch. -/
theorem streamwrcfgFrame : Obligations.StreamwrcfgFrame := by
  intro s t th sel ra cr hth h
  have hout := exec_sameOutside h
  obtain ⟨th', hth', -, -, -, -, rfl⟩ := execStreamwrcfg_next_iff.mp h
  obtain rfl : th = th' := Option.some.inj (hth.symm.trans hth')
  exact ⟨hout, rfl, rfl, rfl, rfl, _, retire_thread?_self _ _ _ hth, rfl, rfl, rfl⟩

/-- Settles O39: the stream, then the state id, then the index, then completion; the four exclude
each other. -/
theorem streamwrcfgRefusals : Obligations.StreamwrcfgRefusals := by
  intro s th sel ra cr hth badStream badState badIndex
  by_cases hstream : badStream
  · rw [exec_streamwrcfg_of_badStream hth hstream]
    simp [hstream]
  by_cases hstate : badState
  · rw [exec_streamwrcfg_of_badState hth hstream hstate]
    simp [hstream, hstate]
  by_cases hindex : badIndex
  · rw [exec_streamwrcfg_of_badIndex hth hstream hstate hindex]
    simp [hstream, hstate, hindex]
  · rw [exec_streamwrcfg_of_inRange hth hstream hstate hindex]
    simp [hstream, hstate, hindex]

/-! ## STREAMWAIT -/

theorem exec_streamwait {s : State} {th : Thread} (hth : s.thread? s.currentThread = some th)
    (sr : BlockMask) (tv : Nat) (ts : CondIndex) (ws : Fin 4) :
    exec (.streamwait sr tv ts ws) s = .next (s.retire
      { th with gate := some (streamwaitLatch th.tcfg sr tv ts ws) } none) :=
  execStreamwait_next_iff.mpr ⟨th, hth, rfl⟩

/-- Settles O25: the latch written is `streamwaitLatch`, component by component. -/
theorem streamwaitWritesLatch : Obligations.StreamwaitWritesLatch := by
  intro s th sr tv ts ws hth
  refine ⟨_, _, exec_streamwait hth sr tv ts ws, retire_thread?_self _ _ _ hth, rfl, ?_, ?_, rfl, rfl⟩
  · rintro rfl
    exact ⟨rfl, rfl⟩
  · rintro rfl
    exact ⟨rfl, rfl⟩

/-- Settles O26: the next state is the thread's record, with its program, ThreadConfig and copies. -/
theorem streamwaitFrame : Obligations.StreamwaitFrame := by
  intro s t th sr tv ts ws hth h
  have hout := exec_sameOutside h
  obtain ⟨th', hth', rfl⟩ := execStreamwait_next_iff.mp h
  obtain rfl : th = th' := Option.some.inj (hth.symm.trans hth')
  exact ⟨hout, rfl, rfl, rfl, rfl, _, retire_thread?_self _ _ _ hth, rfl, rfl, rfl⟩

/-- Bit `i` of a target, either part's. -/
theorem testBit_streamTarget (hi lo i : Nat) : (streamTarget hi lo).testBit i =
    ((decide (10 ≤ i) && hi.testBit (i - 10)) || lo.testBit i) := by
  rw [streamTarget, Nat.testBit_or, Nat.testBit_shiftLeft]

/-- Settles O27: the target's bits, the two high fields, and a condition that reads neither. -/
theorem streamwaitTarget : Obligations.StreamwaitTarget := by
  refine ⟨fun hi lo hlo => ⟨?_, fun i hi10 => ?_, ?_, fun i hi10 => ?_, fun hlow => ?_⟩,
    fun _ _ _ _ => ⟨rfl, rfl⟩, fun _ _ _ _ _ _ => rfl⟩
  · rw [streamTarget, Nat.shiftLeft_eq]
  · rw [testBit_streamTarget, decide_eq_false (by omega), Bool.false_and, Bool.false_or]
  · rw [testBit_streamTarget]
    rfl
  · have hzero : lo.testBit i = false :=
      Nat.testBit_lt_two_pow (lt_of_lt_of_le hlo (Nat.pow_le_pow_right (n := 2) (by decide) hi10))
    rw [testBit_streamTarget, decide_eq_true (by omega), Bool.true_and, hzero, Bool.or_false]
  · rw [streamTarget, ← Nat.shiftLeft_add_eq_or_of_lt (i := 10) hlow, Nat.shiftLeft_eq]

end Sys2Proof.Machine
end

section
/-! SUPPORT. The four meanings told alike: whether an instruction is refused depends on the
parameters, the thread's number and its ThreadConfig alone, and one that is not refused writes
register files, then its thread's record. Statements that run one instruction in two related states
(another latch, another thread's record, other flops, a copy performed first) rest on this. -/

namespace Sys2Proof.Machine

/-- What an instruction writes in the register files, for a thread of this ThreadConfig. -/
def execFiles (i : Instr) (tcfg : ThreadConfig) (s : State) : State :=
  match i with
  | .reg2flop sz tg bo _ f r =>
    match flopBank? s.params tg with
    | some b => reg2flopMove sz b bo f r s
    | none => s
  | .streamwait _ _ _ _ => s
  | .streamwrcfg _ _ _ => s
  | .cfgshiftmask mm am mw rot si ci =>
    match scratchAddr? s.params s.currentThread si with
    | some a => s.writeConfig ⟨tcfg.stateId, ci⟩ (cfgshiftmaskResult mm am mw rot
        (s.readConfig ⟨scratchBankOf s.params tcfg.stateId, a⟩) (s.readConfig ⟨tcfg.stateId, ci⟩))
    | none => s

/-- What an instruction writes in its thread's record, the position and the mark apart. -/
def execThread (i : Instr) (th : Thread) : Thread :=
  match i with
  | .reg2flop _ _ _ _ _ _ => th
  | .streamwait sr tv ts ws => { th with gate := some (streamwaitLatch th.tcfg sr tv ts ws) }
  | .streamwrcfg sel ra cr => { th with
      pendingStreamWrCfg := th.pendingStreamWrCfg ++
        [⟨⟨th.tcfg.bankSel[sel], ra⟩, ⟨th.tcfg.stateId, cr⟩⟩] }
  | .cfgshiftmask _ _ _ _ _ _ => th

/-- The mark an instruction leaves (70_reset_and_hazards.md R207 line 5). -/
def execMark (i : Instr) (tcfg : ThreadConfig) : Option RegAddr :=
  match i with
  | .cfgshiftmask _ _ _ _ _ ci => some ⟨tcfg.stateId, ci⟩
  | _ => none

/-- The next state of an instruction that is not refused. -/
def execEffect (i : Instr) (th : Thread) (s : State) : State :=
  (execFiles i th.tcfg s).retire (execThread i th) (execMark i th.tcfg)

/-- The names under which an instruction refuses (60_exceptions.md R181). -/
def execRefusals : List Refusal :=
  [.cfgStateOutOfRange, .cfgIndexOutOfRange, .streamIndexOutOfRange, .reg2FlopTarget3,
    .reg2FlopByteOffset, .reg2FlopIndexOutOfRange]

/-- All that a refusal depends on: `s` runs its current thread `cur`, of record `th`, under the
parameters `p` with ThreadConfig `tcfg`. -/
structure IssuesAs (p : Params) (cur : Nat) (tcfg : ThreadConfig) (s : State) (th : Thread) :
    Prop where
  params : s.params = p
  current : s.currentThread = cur
  thread : s.thread? s.currentThread = some th
  tcfg : th.tcfg = tcfg

/-- Parameters, thread number and ThreadConfig decide: either every state that has them completes
with the instruction's effect, or every such state refuses under one and the same name. -/
theorem exec_decided (i : Instr) (p : Params) (cur : Nat) (tcfg : ThreadConfig) :
    (∀ s th, IssuesAs p cur tcfg s th → exec i s = .next (execEffect i th s)) ∨
    ∃ q ∈ execRefusals, ∀ s th, IssuesAs p cur tcfg s th → exec i s = .refused q := by
  cases i with
  | reg2flop sz tg bo cx f r =>
    cases hb : flopBank? p tg with
    | none =>
      refine .inr ⟨.reg2FlopTarget3, by decide, ?_⟩
      rintro s th ⟨rfl, rfl, hth, rfl⟩
      exact exec_reg2flop_of_noBank cx hth hb
    | some b =>
      by_cases hoff : sz = .bits16 ∧ 2 ≤ bo
      · obtain ⟨rfl, hbo⟩ := hoff
        refine .inr ⟨.reg2FlopByteOffset, by decide, ?_⟩
        rintro s th ⟨rfl, rfl, hth, rfl⟩
        exact exec_reg2flop_of_badOffset cx hth hb hbo
      by_cases hr : Reg2flopInRange p sz bo f r
      · refine .inl ?_
        rintro s th ⟨rfl, rfl, hth, rfl⟩
        rw [exec_reg2flop_of_inRange cx hth hb hr]
        simp only [execEffect, execFiles, hb, execThread, execMark]
      · refine .inr ⟨.reg2FlopIndexOutOfRange, by decide, ?_⟩
        rintro s th ⟨rfl, rfl, hth, rfl⟩
        exact exec_reg2flop_of_badIndex cx hth hb hoff hr
  | streamwait sr tv ts ws =>
    refine .inl ?_
    rintro s th ⟨rfl, rfl, hth, rfl⟩
    exact exec_streamwait hth sr tv ts ws
  | streamwrcfg sel ra cr =>
    by_cases hstream : p.nstreams ≤ tcfg.bankSel[sel] ∨ p.nstreamregs ≤ ra
    · refine .inr ⟨.streamIndexOutOfRange, by decide, ?_⟩
      rintro s th ⟨rfl, rfl, hth, rfl⟩
      exact exec_streamwrcfg_of_badStream hth hstream
    by_cases hstate : p.cfgNumStates ≤ tcfg.stateId
    · refine .inr ⟨.cfgStateOutOfRange, by decide, ?_⟩
      rintro s th ⟨rfl, rfl, hth, rfl⟩
      exact exec_streamwrcfg_of_badState hth hstream hstate
    by_cases hindex : p.cfgStateSize ≤ cr
    · refine .inr ⟨.cfgIndexOutOfRange, by decide, ?_⟩
      rintro s th ⟨rfl, rfl, hth, rfl⟩
      exact exec_streamwrcfg_of_badIndex hth hstream hstate hindex
    · refine .inl ?_
      rintro s th ⟨rfl, rfl, hth, rfl⟩
      exact exec_streamwrcfg_of_inRange hth hstream hstate hindex
  | cfgshiftmask mm am mw rot si ci =>
    by_cases hstate : p.cfgNumStates ≤ tcfg.stateId ∨ p.cfgNumStates ≤ scratchBankOf p tcfg.stateId
    · refine .inr ⟨.cfgStateOutOfRange, by decide, ?_⟩
      rintro s th ⟨rfl, rfl, hth, rfl⟩
      exact exec_cfgshiftmask_of_badState mm am mw rot hth hstate
    obtain ⟨hst, hbank⟩ := not_or.mp hstate
    by_cases hindex : p.cfgStateSize ≤ ci ∨ scratchAddr? p cur si = none
    · refine .inr ⟨.cfgIndexOutOfRange, by decide, ?_⟩
      rintro s th ⟨rfl, rfl, hth, rfl⟩
      exact exec_cfgshiftmask_of_badIndex mm am mw rot hth (Nat.lt_of_not_le hst)
        (Nat.lt_of_not_le hbank) hindex
    · obtain ⟨hci, hsel⟩ := not_or.mp hindex
      obtain ⟨a, ha⟩ := Option.ne_none_iff_exists'.mp hsel
      obtain ⟨hentry, hal⟩ := scratchAddr?_eq_some.mp ha
      refine .inl ?_
      rintro s th ⟨rfl, rfl, hth, rfl⟩
      rw [exec_cfgshiftmask_of_inRange mm am mw rot hth (Nat.lt_of_not_le hst) rfl
        (Nat.lt_of_not_le hbank) (Nat.lt_of_not_le hci) hentry hal]
      simp only [execEffect, execFiles, ha, execThread, execMark]

/-- Two states that agree on what a refusal depends on: both complete, each with the instruction's
effect, or both refuse alike. -/
theorem exec_congr {s s' : State} {th th' : Thread} (i : Instr) (hp : s'.params = s.params)
    (hc : s'.currentThread = s.currentThread) (hth : s.thread? s.currentThread = some th)
    (hth' : s'.thread? s.currentThread = some th') (htc : th'.tcfg = th.tcfg) :
    (exec i s = .next (execEffect i th s) ∧ exec i s' = .next (execEffect i th' s')) ∨
      ∃ q ∈ execRefusals, exec i s = .refused q ∧ exec i s' = .refused q := by
  have hs : IssuesAs s.params s.currentThread th.tcfg s th := ⟨rfl, rfl, hth, rfl⟩
  have hs' : IssuesAs s.params s.currentThread th.tcfg s' th' := ⟨hp, hc, hc ▸ hth', htc⟩
  rcases exec_decided i s.params s.currentThread th.tcfg with h | ⟨q, hq, h⟩
  · exact .inl ⟨h s th hs, h s' th' hs'⟩
  · exact .inr ⟨q, hq, h s th hs, h s' th' hs'⟩

/-- An instruction completes with its effect or refuses under one of its names. -/
theorem exec_cases {s : State} {th : Thread} (i : Instr) (hth : s.thread? s.currentThread = some th) :
    exec i s = .next (execEffect i th s) ∨ ∃ q ∈ execRefusals, exec i s = .refused q := by
  rcases exec_congr i rfl rfl hth hth rfl with ⟨h, -⟩ | ⟨q, hq, h, -⟩
  · exact .inl h
  · exact .inr ⟨q, hq, h⟩

/-! ## The parts of the effect -/

/-- An instruction writes Config and the flops, and no other register file. -/
theorem execFiles_eq (i : Instr) (tcfg : ThreadConfig) (s : State) : execFiles i tcfg s =
    { s with config := (execFiles i tcfg s).config, flops := (execFiles i tcfg s).flops } := by
  cases i with
  | reg2flop sz tg bo cx f r =>
    simp only [execFiles]
    split
    · rw [reg2flopMove_eq]
    · rfl
  | streamwait sr tv ts ws => rfl
  | streamwrcfg sel ra cr => rfl
  | cfgshiftmask mm am mw rot si ci =>
    simp only [execFiles]
    split <;> rfl

section files
variable (i : Instr) (tcfg : ThreadConfig) (s : State)

@[simp] theorem execFiles_params : (execFiles i tcfg s).params = s.params := by rw [execFiles_eq]
@[simp] theorem execFiles_currentThread : (execFiles i tcfg s).currentThread = s.currentThread := by
  rw [execFiles_eq]
@[simp] theorem execFiles_threads : (execFiles i tcfg s).threads = s.threads := by rw [execFiles_eq]
@[simp] theorem execFiles_thread? (t : Nat) : (execFiles i tcfg s).thread? t = s.thread? t := by
  rw [execFiles_eq]; rfl

/-- What an instruction writes in the register files does not depend on any thread's record. -/
theorem execFiles_setThread (u : Nat) (x : Thread) :
    execFiles i tcfg (s.setThread u x) = (execFiles i tcfg s).setThread u x := by
  cases i with
  | reg2flop sz tg bo cx f r =>
    simp only [execFiles, setThread_params]
    split
    · cases sz <;> rfl
    · rfl
  | streamwait sr tv ts ws => rfl
  | streamwrcfg sel ra cr => rfl
  | cfgshiftmask mm am mw rot si ci =>
    simp only [execFiles, setThread_params, setThread_currentThread]
    split <;> rfl

end files

section effect
variable (i : Instr) (th : Thread) (s : State)

theorem execEffect_thread?_self {old : Thread} (h : s.thread? s.currentThread = some old) :
    (execEffect i th s).thread? s.currentThread = some { execThread i th with
      pc := (execThread i th).pc + 1, lastWasCfgShiftMask := execMark i th.tcfg } := by
  have hold : (execFiles i th.tcfg s).thread? (execFiles i th.tcfg s).currentThread = some old := by
    simpa using h
  have hself := retire_thread?_self _ (execThread i th) (execMark i th.tcfg) hold
  rwa [execFiles_currentThread] at hself

/-- The effect overwrites whatever the issuing thread's record was. -/
theorem execEffect_setThread_self (x : Thread) :
    execEffect i th (s.setThread s.currentThread x) = execEffect i th s := by
  rw [execEffect, execEffect, execFiles_setThread, State.retire, State.retire,
    setThread_currentThread, execFiles_currentThread, setThread_setThread]

/-- The effect leaves another thread's record as it is, whatever it is. -/
theorem execEffect_setThread_other {u : Nat} (h : u ≠ s.currentThread) (x : Thread) :
    execEffect i th (s.setThread u x) = (execEffect i th s).setThread u x := by
  rw [execEffect, execEffect, execFiles_setThread, State.retire, State.retire,
    setThread_currentThread, execFiles_currentThread, setThread_comm h]

/-- The record's latch is passed on or overwritten, never read. -/
theorem execThread_gate (g : Option Latch) :
    ∃ g', execThread i { th with gate := g } = { execThread i th with gate := g' } := by
  cases i with
  | streamwait sr tv ts ws => exact ⟨some (streamwaitLatch th.tcfg sr tv ts ws), rfl⟩
  | reg2flop sz tg bo cx f r => exact ⟨g, rfl⟩
  | streamwrcfg sel ra cr => exact ⟨g, rfl⟩
  | cfgshiftmask mm am mw rot si ci => exact ⟨g, rfl⟩

/-- The oldest pending copy stays the oldest, and is not read. -/
theorem execThread_pending {c : StreamCopy} {rest : List StreamCopy}
    (h : th.pendingStreamWrCfg = c :: rest) :
    ∃ rest', (execThread i th).pendingStreamWrCfg = c :: rest' ∧
      execThread i { th with pendingStreamWrCfg := rest } =
        { execThread i th with pendingStreamWrCfg := rest' } := by
  cases i with
  | streamwrcfg sel ra cr =>
    exact ⟨rest ++ [⟨⟨th.tcfg.bankSel[sel], ra⟩, ⟨th.tcfg.stateId, cr⟩⟩],
      by simp [execThread, h], rfl⟩
  | reg2flop sz tg bo cx f r => exact ⟨rest, h, rfl⟩
  | streamwait sr tv ts ws => exact ⟨rest, h, rfl⟩
  | cfgshiftmask mm am mw rot si ci => exact ⟨rest, h, rfl⟩

end effect

end Sys2Proof.Machine
end

section
/-! SUPPORT. The Wait Gate (42_streamwait.md section 3): its verdict told by a latch's condition, a
thread's step told by the verdict, and the gate's own release. -/

namespace Sys2Proof.Machine

/-! ## The verdict -/

section verdict
variable {p : Params} {st : RegFile} {th : Thread} {l : Latch} {i : Instr}

/-- R144's condition, as the two comparisons the condition mask chooses from. -/
theorem keepBlocking_iff : keepBlocking p st th l = true ↔
    (l.conditionMask.getLsbD 0 = true ∧
      (st.read ⟨latchStream th l, p.currPhaseReg⟩).toNat < l.targetValue) ∨
    (l.conditionMask.getLsbD 1 = true ∧
      (st.read ⟨latchStream th l, p.numMsgsReg⟩).toNat < l.targetValue) := by
  simp only [keepBlocking, Bool.or_eq_true, Bool.and_eq_true, decide_eq_true_eq]

theorem latchInRange_of_lt (hstream : latchStream th l < p.nstreams)
    (hphase : p.currPhaseReg < p.nstreamregs) (hmsgs : p.numMsgsReg < p.nstreamregs) :
    latchInRange p th l = true := by
  simp [latchInRange, hstream, hphase, hmsgs]

theorem latchInRange_of_le (hstream : p.nstreams ≤ latchStream th l) :
    latchInRange p th l = false := by
  simp [latchInRange, Nat.not_lt.mpr hstream]

theorem gateVerdict_of_no_latch (hg : th.gate = none) : gateVerdict p st th i = .notBlocked := by
  rw [gateVerdict, hg]

variable (hg : th.gate = some l)
include hg

theorem gateVerdict_of_unmasked (hm : l.blockMask &&& stallBits i = 0) :
    gateVerdict p st th i = .notBlocked := by
  simp only [gateVerdict, hg, if_pos hm]

variable (hm : l.blockMask &&& stallBits i ≠ 0)
include hm

theorem gateVerdict_of_outOfRange (hr : latchInRange p th l = false) :
    gateVerdict p st th i = .streamOutOfRange := by
  simp only [gateVerdict, hg, if_neg hm, if_pos hr]

variable (hr : latchInRange p th l = true)
include hr

theorem gateVerdict_of_keepBlocking (hk : keepBlocking p st th l = true) :
    gateVerdict p st th i = .hold := by
  simp only [gateVerdict, hg, if_neg hm, hr, hk, if_true, reduceCtorEq, if_false]

theorem gateVerdict_of_met (hk : keepBlocking p st th l = false) :
    gateVerdict p st th i = .met := by
  simp only [gateVerdict, hg, if_neg hm, hr, hk, reduceCtorEq, if_false]

theorem gateVerdict_eq_hold_iff :
    gateVerdict p st th i = .hold ↔ keepBlocking p st th l = true := by
  cases hk : keepBlocking p st th l with
  | true => simp [gateVerdict_of_keepBlocking hg hm hr hk]
  | false => simp [gateVerdict_of_met hg hm hr hk]

theorem gateVerdict_eq_met_iff :
    gateVerdict p st th i = .met ↔ ¬ keepBlocking p st th l = true := by
  cases hk : keepBlocking p st th l with
  | true => simp [gateVerdict_of_keepBlocking hg hm hr hk]
  | false => simp [gateVerdict_of_met hg hm hr hk]

end verdict

/-- Settles O30: the verdict is the condition's, and the condition is two comparisons. -/
theorem latchCondition : Obligations.LatchCondition := by
  intro p st th l i hg hm stream phase numMsgs
  refine ⟨fun hout => gateVerdict_of_outOfRange hg hm (latchInRange_of_le hout),
    fun hstream hphase hmsgs => ?_⟩
  have hr := latchInRange_of_lt (l := l) hstream hphase hmsgs
  rw [gateVerdict_eq_hold_iff hg hm hr, gateVerdict_eq_met_iff hg hm hr, keepBlocking_iff]
  refine ⟨Iff.rfl, ?_, fun hzero => ?_, fun hbig hmask => ?_⟩
  · rw [not_or, not_and, not_and, Nat.not_lt, Nat.not_lt]
    rfl
  · simp [hzero]
  · have hword : ∀ a, (st.read a).toNat < l.targetValue := fun a => by
      have := (st.read a).isLt
      omega
    rcases hmask with hmask | hmask
    · exact .inl ⟨by rw [hmask]; rfl, hword _⟩
    · exact .inr ⟨by rw [hmask]; rfl, hword _⟩

/-- Settles O36: each comparison that fails keeps failing as the registers grow. -/
theorem metStaysMet : Obligations.MetStaysMet := by
  intro p st st' th l hle hmet
  rw [Bool.eq_false_iff, ne_eq, keepBlocking_iff] at hmet ⊢
  have hphase := hle ⟨latchStream th l, p.currPhaseReg⟩
  have hmsgs := hle ⟨latchStream th l, p.numMsgsReg⟩
  rintro (⟨hc, hlt⟩ | ⟨hc, hlt⟩)
  · exact hmet (.inl ⟨hc, lt_of_le_of_lt hphase hlt⟩)
  · exact hmet (.inr ⟨hc, lt_of_le_of_lt hmsgs hlt⟩)

/-- No instruction in scope has the class B6, STALL_MATH (42_streamwait.md R146). -/
theorem stallMath_and_stallBits (i : Instr) : stallMath &&& stallBits i = 0 := by
  cases i with
  | reg2flop sz tg bo cx f r => rw [stallBits_reg2flop]; decide
  | streamwait sr tv ts ws => exact (by decide : stallMath &&& stallSync = 0)
  | streamwrcfg sel ra cr => exact (by decide : stallMath &&& stallCfg = 0)
  | cfgshiftmask mm am mw rot si ci => exact (by decide : stallMath &&& stallCfg = 0)

/-- Settles O28: the default mask is B6, and no instruction has that class. -/
theorem defaultBlockMask : Obligations.DefaultBlockMask := by
  refine ⟨fun tcfg sr tv ts ws => ⟨rfl, latchedBlockMask_ne_zero sr⟩, fun p st th l i hg hmask => ?_⟩
  exact gateVerdict_of_unmasked hg (hmask ▸ stallMath_and_stallBits i)

/-! ## A thread's step -/

section attempt
variable {s : State} {t : Nat} {th : Thread} {i : Instr}

theorem issue_of_notBlocked (hv : gateVerdict s.params s.streams th i = .notBlocked) :
    issue t th i s = exec i { s with currentThread := t } := by
  simp only [issue, hv, runUnlessHazard_eq]

theorem issue_of_met (hv : gateVerdict s.params s.streams th i = .met) :
    issue t th i s = exec i (if s.params.latchClears = .always
      then { s with currentThread := t, threads := s.threads.set t { th with gate := none } }
      else { s with currentThread := t }) := by
  simp only [issue, hv, runUnlessHazard_eq, clearMetLatch_eq]
  rfl

theorem issue_of_hold (hv : gateVerdict s.params s.streams th i = .hold) : issue t th i s = .next s := by
  simp only [issue, hv]

theorem issue_of_outOfRange (hv : gateVerdict s.params s.streams th i = .streamOutOfRange) :
    issue t th i s = .refused .streamIndexOutOfRange := by
  simp only [issue, hv]

variable (hth : s.thread? t = some th)
include hth

theorem threadStep_of_end (hw : th.prog[th.pc]? = none) : threadStep t s = .next s := by
  simp only [threadStep, hth, hw]

variable {w : Word} (hw : th.prog[th.pc]? = some w)
include hw

theorem threadStep_of_refused {e : DecodeError} (hd : decode w = .refused e) :
    threadStep t s = .refused (refusalOf e) := by
  simp only [threadStep, hth, hw, hd]

theorem threadStep_of_instr (hd : decode w = .instr i) : threadStep t s = issue t th i s := by
  simp only [threadStep, hth, hw, hd]

end attempt

/-- Settles O31: the step is the issue of the instruction decoded, and the issue is the verdict's. -/
theorem holdRule : Obligations.HoldRule := by
  intro s t th w i hth hw hd
  rw [perform, threadStep_of_instr hth hw hd]
  refine ⟨fun l hg hm hr hk => issue_of_hold (gateVerdict_of_keepBlocking hg hm hr hk),
    fun l hg hm hr hk => issue_of_met (gateVerdict_of_met hg hm hr hk),
    fun l hg hm hr => issue_of_outOfRange (gateVerdict_of_outOfRange hg hm hr),
    fun l hg hm => issue_of_notBlocked (gateVerdict_of_unmasked hg hm),
    fun hg => issue_of_notBlocked (gateVerdict_of_no_latch hg)⟩

/-- The latch a thread holds right after its STREAMWAIT. -/
theorem gate_after_streamwait {s s₁ : State} {th₁ : Thread} {l : Latch} {sr : BlockMask} {tv : Nat}
    {ts : CondIndex} {ws : Fin 4} (h : exec (.streamwait sr tv ts ws) s = .next s₁)
    (hth₁ : s₁.thread? s.currentThread = some th₁) (hl : th₁.gate = some l) :
    l.blockMask = latchedBlockMask sr := by
  obtain ⟨th, hth, rfl⟩ := execStreamwait_next_iff.mp h
  rw [retire_thread?_self _ _ _ hth] at hth₁
  obtain rfl := Option.some.inj hth₁
  obtain rfl := Option.some.inj hl
  rfl

/-- Settles O32: while the latch stands its mask is the one STREAMWAIT wrote, and the hold rule is
asked of it at whatever the streams then hold. -/
theorem latchedNotImmediate : Obligations.LatchedNotImmediate := by
  intro s s₁ s₂ moves th₁ th₂ l sr tv ts ws w i st hexec hth₁ hl₁ _ hth₂ hl₂ hw hd s₃
  have hmask := gate_after_streamwait hexec hth₁ hl₁
  obtain ⟨hheld, -, -, hfree, -⟩ := holdRule s₃ s.currentThread th₂ w i hth₂ hw hd
  rw [← latchedBlockMask, ← hmask]
  exact ⟨fun hm => hfree l hl₂ hm, fun hm hr hk => hheld l hl₂ hm hr hk⟩

/-- B1 is bit 1 of a mask. -/
theorem and_stallSync_eq_zero_iff (m : BlockMask) : m &&& stallSync = 0 ↔ m.getLsbD 1 = false := by
  have hsync : stallSync = BitVec.twoPow 9 1 := by decide
  have hne : stallSync ≠ 0#9 := by decide
  rw [hsync, BitVec.and_twoPow, ← hsync]
  cases m.getLsbD 1 <;> simp [hne]

/-- A STREAMWAIT executed by thread `t`: its latch replaces whatever latch was there. -/
theorem exec_streamwait_replaces {s : State} {th : Thread} (sr : BlockMask) (tv : Nat)
    (ts : CondIndex) (ws : Fin 4) (hth : s.thread? s.currentThread = some th) :
    ∃ s' th', exec (.streamwait sr tv ts ws) s = .next s' ∧ s'.thread? s.currentThread = some th' ∧
      th'.gate = some (streamwaitLatch th.tcfg sr tv ts ws) ∧ th'.pc = th.pc + 1 :=
  ⟨_, _, exec_streamwait hth sr tv ts ws, retire_thread?_self _ _ _ hth, rfl, rfl⟩

/-- Settles O33: the hold rule for the class B1, and what executes is a STREAMWAIT. -/
theorem secondStreamwait : Obligations.SecondStreamwait := by
  intro s t th w l sr tv ts ws hth hw hd hg
  have hB1 : l.blockMask &&& stallBits (.streamwait sr tv ts ws) = 0 ↔ l.blockMask.getLsbD 1 = false :=
    and_stallSync_eq_zero_iff l.blockMask
  obtain ⟨hheld, hmet, hout, hfree, -⟩ := holdRule s t th w _ hth hw hd
  have hblocked : l.blockMask.getLsbD 1 = true →
      l.blockMask &&& stallBits (.streamwait sr tv ts ws) ≠ 0 := fun h hz =>
    Bool.noConfusion (h.symm.trans (hB1.mp hz))
  refine ⟨fun h => hheld l hg (hblocked h), fun h => hout l hg (hblocked h), fun h => ?_⟩
  by_cases hz : l.blockMask.getLsbD 1 = false
  · rw [hfree l hg (hB1.mpr hz)]
    exact exec_streamwait_replaces (s := { s with currentThread := t }) sr tv ts ws hth
  · obtain ⟨hr, hk⟩ := h.resolve_left hz
    rw [hmet l hg (fun h => hz (hB1.mp h)) hr hk]
    split
    · exact exec_streamwait_replaces (th := { th with gate := none }) sr tv ts ws
        (setThread_thread?_self { s with currentThread := t } t _ hth)
    · exact exec_streamwait_replaces (s := { s with currentThread := t }) sr tv ts ws hth

/-! ## The release -/

theorem gateReleasable_iff {s : State} {th : Thread} : gateReleasable s th = true ↔
    ∃ l, th.gate = some l ∧ latchInRange s.params th l = true ∧
      keepBlocking s.params s.streams th l = false := by
  cases hg : th.gate with
  | none => simp [gateReleasable, hg]
  | some l => simp [gateReleasable, hg]

section release
variable {s : State} {t : Nat} {th : Thread} (hth : s.thread? t = some th)
include hth

theorem gateRelease_of_releasable (h : gateReleasable s th = true) :
    gateRelease t s = s.setThread t { th with gate := none } := by
  simp only [gateRelease, hth, if_pos h]

theorem gateRelease_of_not_releasable (h : ¬ gateReleasable s th = true) : gateRelease t s = s := by
  simp only [gateRelease, hth, if_neg h]

end release

/-- Settles O34: a met latch is the only thing a release writes, and the one thing that enables it. -/
theorem releaseDropsMetLatch : Obligations.ReleaseDropsMetLatch := by
  intro s t th hth
  have hkept : ¬ gateReleasable s th = true → perform (.gateRelease t) s = .next s := fun h => by
    rw [perform, gateRelease_of_not_releasable hth h]
  refine ⟨fun l hg hr hk => ?_, fun hg => hkept fun hrel => ?_, fun l hg hk => hkept fun hrel => ?_,
    fun l hg hr => hkept fun hrel => ?_⟩
  · rw [perform, gateRelease_of_releasable hth (gateReleasable_iff.mpr ⟨l, hg, hr, hk⟩)]
    exact ⟨_, rfl, setThread_thread?_self _ _ _ hth, sameOutside_setThread .., rfl, rfl, rfl, rfl⟩
  · obtain ⟨l, hg', -, -⟩ := gateReleasable_iff.mp hrel
    rw [hg] at hg'
    cases hg'
  · obtain ⟨l', hg', -, hk'⟩ := gateReleasable_iff.mp hrel
    obtain rfl := Option.some.inj (hg.symm.trans hg')
    rw [hk] at hk'
    cases hk'
  · obtain ⟨l', hg', hr', -⟩ := gateReleasable_iff.mp hrel
    obtain rfl := Option.some.inj (hg.symm.trans hg')
    rw [hr] at hr'
    cases hr'

/-- What an attempt of thread `t` does is exec of its instruction or nothing, when its latch is met:
the record the instruction finds is the thread's own, its latch kept or dropped. -/
theorem issue_of_releasable {s : State} {t : Nat} {th : Thread} (i : Instr)
    (hth : s.thread? t = some th) (hrel : gateReleasable s th = true) :
    ∃ g, issue t th i s = exec i (State.setThread { s with currentThread := t } t
      { th with gate := g }) := by
  obtain ⟨l, hg, hr, hk⟩ := gateReleasable_iff.mp hrel
  have hself : State.setThread { s with currentThread := t } t { th with gate := th.gate } =
      { s with currentThread := t } := by
    obtain ⟨hlt, rfl⟩ := List.getElem?_eq_some_iff.mp hth
    simp [State.setThread, List.set_getElem_self hlt]
  by_cases hm : l.blockMask &&& stallBits i = 0
  · exact ⟨th.gate, by rw [hself, issue_of_notBlocked (gateVerdict_of_unmasked hg hm)]⟩
  · rw [issue_of_met (gateVerdict_of_met hg hm hr hk)]
    split
    · exact ⟨none, rfl⟩
    · exact ⟨th.gate, by rw [hself]⟩

/-- No instruction reads its thread's latch: with another one it completes to the same state, that
latch apart, or refuses alike. -/
theorem exec_latch_unread {s : State} {th : Thread} (i : Instr) (g g' : Option Latch)
    (hth : s.thread? s.currentThread = some th) :
    (∀ s₁ th₁, exec i (s.setThread s.currentThread { th with gate := g }) = .next s₁ →
      s₁.thread? s.currentThread = some th₁ →
      ∃ s₂ g₂, exec i (s.setThread s.currentThread { th with gate := g' }) = .next s₂ ∧
        s₂.setThread s.currentThread { th₁ with gate := g₂ } =
          s₁.setThread s.currentThread { th₁ with gate := g₂ } ∧
        s₂.thread? s.currentThread = some { th₁ with gate := g₂ }) ∧
    (∀ r, exec i (s.setThread s.currentThread { th with gate := g }) = .refused r →
      exec i (s.setThread s.currentThread { th with gate := g' }) = .refused r) := by
  have hth₁ := setThread_thread?_self s _ { th with gate := g } hth
  have hth₂ := setThread_thread?_self s _ { th with gate := g' } hth
  rcases exec_congr (s := s.setThread s.currentThread { th with gate := g })
    (s' := s.setThread s.currentThread { th with gate := g' }) i rfl rfl hth₁ hth₂ rfl
    with ⟨h, h'⟩ | ⟨q, -, h, h'⟩
  · obtain ⟨g₁, hg₁⟩ := execThread_gate i th g
    obtain ⟨g₂, hg₂⟩ := execThread_gate i th g'
    rw [h, h', execEffect_setThread_self, execEffect_setThread_self]
    refine ⟨?_, nofun⟩
    rintro s₁ th₁ ⟨⟩ hth₁
    rw [execEffect_thread?_self _ _ _ hth, hg₁] at hth₁
    obtain rfl := Option.some.inj hth₁
    refine ⟨_, g₂, rfl, ?_, ?_⟩
    · simp only [execEffect, State.retire, execFiles_currentThread, setThread_setThread]
    · rw [execEffect_thread?_self _ _ _ hth, hg₂]
  · rw [h, h']
    exact ⟨nofun, fun _ hr => hr⟩

/-- Settles O35: with the latch met, the attempt runs the instruction whether the latch is there or
not, and no instruction reads it. -/
theorem releaseIsUnobservable : Obligations.ReleaseIsUnobservable := by
  intro s t th hth hrel
  rw [gateRelease_of_releasable hth hrel, perform, perform]
  have hth' := setThread_thread?_self s t { th with gate := none } hth
  cases hw : th.prog[th.pc]? with
  | none =>
    rw [threadStep_of_end hth hw, threadStep_of_end hth' hw]
    refine ⟨?_, nofun⟩
    rintro s₁ th₁ ⟨⟩ hth₁
    obtain rfl : th = th₁ := Option.some.inj (hth.symm.trans hth₁)
    exact ⟨_, none, rfl, setThread_setThread .., hth'⟩
  | some w =>
    cases hd : decode w with
    | refused e =>
      rw [threadStep_of_refused hth hw hd, threadStep_of_refused hth' hw hd]
      exact ⟨nofun, fun _ h => h⟩
    | instr i =>
      obtain ⟨g, hissue⟩ := issue_of_releasable i hth hrel
      rw [threadStep_of_instr hth hw hd, threadStep_of_instr hth' hw hd, hissue,
        issue_of_notBlocked (gateVerdict_of_no_latch rfl)]
      exact exec_latch_unread (s := { s with currentThread := t }) i g none hth

end Sys2Proof.Machine
end

section
/-! SUPPORT. What a move of each kind does to each thread's record and to the register files, told by
the effect of the instruction a thread's step executes; and with it which state no step changes. -/

namespace Sys2Proof.Machine

/-! ## What an effect leaves alone -/

section effect
variable (i : Instr) (th : Thread) (s : State)

@[simp] theorem execThread_prog : (execThread i th).prog = th.prog := by cases i <;> rfl
@[simp] theorem execThread_pc : (execThread i th).pc = th.pc := by cases i <;> rfl
@[simp] theorem execThread_tcfg : (execThread i th).tcfg = th.tcfg := by cases i <;> rfl

/-- A copy is queued behind the earlier ones. -/
theorem pending_prefix_execThread :
    th.pendingStreamWrCfg <+: (execThread i th).pendingStreamWrCfg := by
  cases i with
  | streamwrcfg sel ra cr => exact List.prefix_append ..
  | reg2flop sz tg bo cx f r => exact List.prefix_rfl
  | streamwait sr tv ts ws => exact List.prefix_rfl
  | cfgshiftmask mm am mw rot si ci => exact List.prefix_rfl

theorem execEffect_params : (execEffect i th s).params = s.params := by simp [execEffect]
theorem execEffect_sched : (execEffect i th s).sched = s.sched := by
  rw [execEffect, retire_sched, execFiles_eq]
theorem execEffect_nthreads : (execEffect i th s).nthreads = s.nthreads := by
  simp [execEffect, State.nthreads]
theorem execEffect_tdma : (execEffect i th s).tdma = s.tdma := by
  rw [execEffect, retire_tdma, execFiles_eq]
theorem execEffect_streams : (execEffect i th s).streams = s.streams := by
  rw [execEffect, retire_streams, execFiles_eq]

theorem execEffect_thread?_ne {u : Nat} (h : u ≠ s.currentThread) :
    (execEffect i th s).thread? u = s.thread? u := by
  have hu : u ≠ (execFiles i th.tcfg s).currentThread := by rwa [execFiles_currentThread]
  rw [execEffect, retire_thread?_ne _ _ _ hu, execFiles_thread?]

end effect

/-- The names a step refuses under. -/
def stepRefusals : List Refusal := [.opcodeNotInScope, .reservedBitSet, .cfgStateOutOfRange,
  .cfgIndexOutOfRange, .streamIndexOutOfRange, .reg2FlopTarget3, .reg2FlopByteOffset,
  .reg2FlopIndexOutOfRange]

theorem execRefusals_subset : execRefusals ⊆ stepRefusals := by decide

theorem refusalOf_mem (e : DecodeError) : refusalOf e ∈ stepRefusals := by cases e <;> decide

/-- What a thread's step can answer: nothing done (not enabled, or held), a refusal, or the effect of
the instruction at its position on its own record, the latch kept or dropped. -/
theorem threadStep_outcome (t : Nat) (s : State) :
    threadStep t s = .next s ∨ (∃ q ∈ stepRefusals, threadStep t s = .refused q) ∨
    ∃ th w i g, s.thread? t = some th ∧ th.prog[th.pc]? = some w ∧ decode w = .instr i ∧
      gateVerdict s.params s.streams th i ≠ .hold ∧
      threadStep t s = .next (execEffect i { th with gate := g } { s with currentThread := t }) := by
  rcases threadStep_cases t s with hs | ⟨e, hs⟩ | hs | ⟨th, w, i, g, hth, hw, hd, hv, -, hs⟩
  · exact .inl hs
  · exact .inr (.inl ⟨_, refusalOf_mem e, hs⟩)
  · exact .inr (.inl ⟨_, by decide, hs⟩)
  · have hstart := setThread_thread?_self { s with currentThread := t } t { th with gate := g } hth
    rcases exec_cases i hstart with hx | ⟨q, hq, hx⟩
    · refine .inr (.inr ⟨th, w, i, g, hth, hw, hd, hv, (hs.trans hx).trans ?_⟩)
      exact congrArg Host.Outcome.next (execEffect_setThread_self ..)
    · exact .inr (.inl ⟨q, execRefusals_subset hq, hs.trans hx⟩)

/-- The thread's own record after such an effect. -/
theorem thread?_attempt {s : State} {t : Nat} {th : Thread} (i : Instr) (g : Option Latch)
    (hth : s.thread? t = some th) :
    (execEffect i { th with gate := g } { s with currentThread := t }).thread? t =
      some { execThread i { th with gate := g } with
        pc := th.pc + 1, lastWasCfgShiftMask := execMark i th.tcfg } := by
  have hself := execEffect_thread?_self i { th with gate := g } { s with currentThread := t } hth
  rwa [execThread_pc] at hself

/-! ## The perform step and the environment's -/

@[simp] theorem dropAction_thread? (s : State) (t : Nat) :
    (dropAction s).thread? t = s.thread? t := by
  rw [State.thread?, dropAction_threads]; rfl

theorem cfgPerform_of_pending {s : State} {t : Nat} {th : Thread} {c : StreamCopy}
    {rest : List StreamCopy} (hth : s.thread? t = some th) (hp : th.pendingStreamWrCfg = c :: rest) :
    cfgPerform t s = (s.writeConfig c.target (s.readStream c.source)).setThread t
      { th with pendingStreamWrCfg := rest } := by
  simp only [cfgPerform, hth, hp]

theorem cfgPerform_of_none {s : State} {t : Nat} {th : Thread} (hth : s.thread? t = some th)
    (hp : th.pendingStreamWrCfg = []) : cfgPerform t s = s := by
  simp only [cfgPerform, hth, hp]

/-- The environment's step writes the stream registers alone. -/
theorem envStep_eq (stream reg : Nat) (v : Word) (s : State) : envStep stream reg v s =
    { s with streams := (envStep stream reg v s).streams } := by
  rcases envStep_cases stream reg v s with h | ⟨-, -, h⟩ <;> rw [h]
  rfl

/-! ## A move and one thread's record -/

/-- What a move makes of thread `t`'s record: its program and ThreadConfig are kept; its position
moves on by one in its own step alone, and then it was not held; its copies are taken from the front
by its own perform step alone, and are else only queued behind. -/
structure RecordStep (a : Action) (s : State) (t : Nat) (th th' : Thread) : Prop where
  prog : th'.prog = th.prog
  tcfg : th'.tcfg = th.tcfg
  pc : th'.pc = th.pc ∨ (th'.pc = th.pc + 1 ∧ a = .threadStep t ∧ th.pc < th.prog.length ∧
    ∀ w i, th.prog[th.pc]? = some w → decode w = .instr i →
      gateVerdict s.params s.streams th i ≠ .hold)
  performed : a = .cfgPerform t → th'.pendingStreamWrCfg = th.pendingStreamWrCfg.tail
  queued : a ≠ .cfgPerform t → th.pendingStreamWrCfg <+: th'.pendingStreamWrCfg

/-- A record no move touches. -/
theorem RecordStep.refl {a : Action} {s : State} {t : Nat} {th : Thread}
    (h : a = .cfgPerform t → th.pendingStreamWrCfg = []) : RecordStep a s t th th where
  prog := rfl
  tcfg := rfl
  pc := .inl rfl
  performed ha := by rw [h ha]; rfl
  queued _ := List.prefix_rfl

/-- What a move that answers a next state does, whichever of the four it is. -/
structure MoveStep (a : Action) (s s' : State) : Prop where
  params : s'.params = s.params
  sched : s'.sched = s.sched
  tdma : s'.tdma = s.tdma
  nthreads : s'.nthreads = s.nthreads
  records : ∀ t th, s.thread? t = some th →
    ∃ th', s'.thread? t = some th' ∧ RecordStep a s t th th'
  streams : s'.streams = s.streams ∨ ∃ stream reg v, a = .envStep stream reg v

/-- A move that does nothing. -/
theorem MoveStep.refl {a : Action} {s : State}
    (h : ∀ t th, a = .cfgPerform t → s.thread? t = some th → th.pendingStreamWrCfg = []) :
    MoveStep a s s where
  params := rfl
  sched := rfl
  tdma := rfl
  nthreads := rfl
  records t th hth := ⟨th, hth, .refl fun ha => h t th ha hth⟩
  streams := .inl rfl

theorem threadStep_moveStep {u : Nat} {s s' : State} (h : threadStep u s = .next s') :
    MoveStep (.threadStep u) s s' := by
  rcases threadStep_outcome u s with hs | ⟨q, -, hs⟩ | ⟨tu, w, i, g, htu, hw, hd, hv, hs⟩ <;>
    cases h.symm.trans hs
  · exact .refl nofun
  refine ⟨execEffect_params .., execEffect_sched .., execEffect_tdma .., execEffect_nthreads ..,
    fun t th hth => ?_, .inl (execEffect_streams ..)⟩
  by_cases htu' : t = u
  · subst htu'
    obtain rfl : tu = th := Option.some.inj (htu.symm.trans hth)
    refine ⟨_, thread?_attempt i g hth,
      { prog := execThread_prog ..
        tcfg := execThread_tcfg ..
        pc := .inr ⟨rfl, rfl, (List.getElem?_eq_some_iff.mp hw).1, fun w' i' hw' hd' => ?_⟩
        performed := nofun
        queued := fun _ => pending_prefix_execThread i { tu with gate := g } }⟩
    obtain rfl : w = w' := Option.some.inj (hw.symm.trans hw')
    obtain rfl : i = i' := Decoded.instr.inj (hd.symm.trans hd')
    exact hv
  · have hkept := execEffect_thread?_ne i { tu with gate := g } { s with currentThread := u } htu'
    exact ⟨th, hkept.trans hth, .refl nofun⟩

theorem cfgPerform_moveStep (u : Nat) (s : State) : MoveStep (.cfgPerform u) s (cfgPerform u s) := by
  cases htu : s.thread? u with
  | none =>
    have hs : cfgPerform u s = s := by simp only [cfgPerform, htu]
    rw [hs]
    refine .refl fun t th ha hth => ?_
    obtain rfl := Action.cfgPerform.inj ha
    cases htu.symm.trans hth
  | some tu =>
    cases hp : tu.pendingStreamWrCfg with
    | nil =>
      rw [cfgPerform_of_none htu hp]
      refine .refl fun t th ha hth => ?_
      obtain rfl := Action.cfgPerform.inj ha
      obtain rfl : tu = th := Option.some.inj (htu.symm.trans hth)
      exact hp
    | cons c rest =>
      rw [cfgPerform_of_pending htu hp]
      refine ⟨rfl, rfl, rfl, setThread_nthreads .., fun t th hth => ?_, .inl rfl⟩
      by_cases htu' : t = u
      · subst htu'
        obtain rfl : tu = th := Option.some.inj (htu.symm.trans hth)
        exact ⟨_, setThread_thread?_self _ _ _ hth, rfl, rfl, .inl rfl, fun _ => by rw [hp]; rfl,
          fun hne => absurd rfl hne⟩
      · exact ⟨th, (setThread_thread?_ne _ _ _ htu').trans hth,
          .refl fun ha => absurd (Action.cfgPerform.inj ha).symm htu'⟩

theorem gateRelease_moveStep (u : Nat) (s : State) :
    MoveStep (.gateRelease u) s (gateRelease u s) := by
  rcases gateRelease_cases u s with hs | ⟨tu, htu, -, hs⟩ <;> rw [hs]
  · exact .refl nofun
  refine ⟨rfl, rfl, rfl, setThread_nthreads .., fun t th hth => ?_, .inl rfl⟩
  by_cases htu' : t = u
  · subst htu'
    obtain rfl : tu = th := Option.some.inj (htu.symm.trans hth)
    exact ⟨_, setThread_thread?_self _ _ _ hth, rfl, rfl, .inl rfl, nofun, fun _ => List.prefix_rfl⟩
  · exact ⟨th, (setThread_thread?_ne _ _ _ htu').trans hth, .refl nofun⟩

theorem perform_next {a : Action} {s s' : State} (h : perform a s = .next s') : MoveStep a s s' := by
  cases a with
  | threadStep u => exact threadStep_moveStep h
  | cfgPerform u =>
    cases h
    exact cfgPerform_moveStep u s
  | gateRelease u =>
    cases h
    exact gateRelease_moveStep u s
  | envStep stream reg v =>
    cases h
    rw [envStep_eq]
    exact ⟨rfl, rfl, rfl, rfl, fun t th hth => ⟨th, hth, .refl nofun⟩, .inr ⟨stream, reg, v, rfl⟩⟩

/-! ## The statements about every step -/

/-- Settles O50: no move writes what is listed, and using up the schedule's choice does not. -/
theorem readOnlyState : Obligations.ReadOnlyState := by
  intro s s' h
  have hmove := perform_next h
  have hcount : (dropAction s).nthreads = s.nthreads := by
    rw [State.nthreads, dropAction_threads, State.nthreads]
  refine ⟨hmove.params.trans (dropAction_params s), hmove.tdma.trans (dropAction_tdma s),
    hmove.nthreads.trans hcount, fun t th hth => ?_, fun hne => ?_⟩
  · rw [← dropAction_thread?] at hth
    obtain ⟨th', hth', hrec⟩ := hmove.records t th hth
    exact ⟨th', hth', hrec.prog, hrec.tcfg⟩
  · rw [← dropAction_streams s] at hne
    exact hmove.streams.resolve_left hne

/-- Settles O51: a thread's position is its record's, and only its own step moves it on. -/
theorem positionAdvancesByOne : Obligations.PositionAdvancesByOne := by
  intro s s' t th th' h hth hth'
  rw [← dropAction_thread?] at hth
  obtain ⟨th'', hth'', hrec⟩ := (perform_next h).records t th hth
  obtain rfl : th' = th'' := Option.some.inj (hth'.symm.trans hth'')
  have hpc := hrec.pc
  rwa [dropAction_params, dropAction_streams] at hpc

/-- A move answers a next state or refuses under one of R181's names. -/
theorem perform_next_or_refused (a : Action) (s : State) :
    (∃ s', perform a s = .next s') ∨ ∃ q ∈ stepRefusals, perform a s = .refused q := by
  cases a with
  | threadStep t =>
    rw [perform]
    rcases threadStep_outcome t s with hs | hs | ⟨_, _, _, _, -, -, -, -, hs⟩
    · exact .inl ⟨s, hs⟩
    · exact .inr hs
    · exact .inl ⟨_, hs⟩
  | cfgPerform t => exact .inl ⟨_, rfl⟩
  | gateRelease t => exact .inl ⟨_, rfl⟩
  | envStep stream reg v => exact .inl ⟨_, rfl⟩

/-- Settles O48: a move that answers no next state answers a refusal. -/
theorem noStepFaults : Obligations.NoStepFaults := by
  intro s f hf
  rcases perform_next_or_refused (nextAction s) (dropAction s) with ⟨s', h⟩ | ⟨q, -, h⟩ <;>
    cases hf.symm.trans h

/-- Settles O49: the decoder's names, the gate's and the instructions' are the eight. -/
theorem stepRefusalNames : Obligations.StepRefusalNames := by
  intro s r hr
  rcases perform_next_or_refused (nextAction s) (dropAction s) with ⟨s', h⟩ | ⟨q, hq, h⟩
  · cases hr.symm.trans h
  · obtain rfl := Host.Outcome.refused.inj (hr.symm.trans h)
    exact hq

end Sys2Proof.Machine
end

section
/-! SUPPORT. Pending copies (70_reset_and_hazards.md R203): the perform step, the order in which copies
of one thread perform, what may overtake one, and that fairness performs each (R208). -/

namespace Sys2Proof.Machine

/-- Settles O40: the perform step is one Config write and the thread's record. -/
theorem performCopies : Obligations.PerformCopies := by
  intro s t th c rest hth hp
  rw [perform, cfgPerform_of_pending hth hp]
  refine ⟨_, rfl, readConfig_writeConfig_self .., fun a ha => readConfig_writeConfig_ne ha ..,
    setThread_thread?_self _ _ _ hth, ?_, rfl, rfl, rfl⟩
  exact { sameOutside_setThread (s.writeConfig c.target (s.readStream c.source)) t
    { th with pendingStreamWrCfg := rest } with }

/-! ## Issue order -/

/-- Any moves of the environment leave everything but the stream registers as it is. -/
theorem runMoves_envSteps (writes : List (RegAddr × Word)) (s : State) :
    ∃ f, runMoves (writes.map fun e => .envStep e.1.bank e.1.index e.2) s =
      .next { s with streams := f } := by
  induction writes generalizing s with
  | nil => exact ⟨s.streams, rfl⟩
  | cons e writes ih =>
    obtain ⟨f, hf⟩ := ih (envStep e.1.bank e.1.index e.2 s)
    refine ⟨f, ?_⟩
    rw [envStep_eq] at hf
    rw [List.map_cons, runMoves, perform, envStep_eq]
    exact hf

/-- Settles O41: the first perform step leaves the second copy the oldest, the environment leaves the
thread's record alone, and the second perform step writes the same register. -/
theorem performInIssueOrder : Obligations.PerformInIssueOrder := by
  intro s t th c d rest writes hth hp htarget
  obtain ⟨s', hs', hread, -, hth', -⟩ := performCopies s t th c (d :: rest) hth hp
  obtain ⟨f, hf⟩ := runMoves_envSteps writes s'
  obtain ⟨s'', hs'', hread', -, hth'', -⟩ :=
    performCopies { s' with streams := f } t { th with pendingStreamWrCfg := d :: rest } d rest
      hth' rfl
  refine ⟨{ s' with streams := f }, s'', ?_, ?_, hs'', hread', hth''⟩
  · rw [runMoves, hs']
    exact hf
  · rw [← htarget]
    exact hread

/-! ## Overtaking -/

/-- A Config write commutes with what an instruction writes, when the instruction is no CFGSHIFTMASK
or one whose target and scratch register are others. -/
theorem execFiles_writeConfig {i : Instr} {tcfg : ThreadConfig} {s : State} {a : RegAddr} {v : Word}
    (hcanon : s.config.Canonical)
    (h : ∀ mm am mw rot si ci, i = .cfgshiftmask mm am mw rot si ci → a ≠ ⟨tcfg.stateId, ci⟩ ∧
      ∀ x, scratchAddr? s.params s.currentThread si = some x →
        a ≠ ⟨scratchBankOf s.params tcfg.stateId, x⟩) :
    execFiles i tcfg (s.writeConfig a v) = (execFiles i tcfg s).writeConfig a v := by
  cases i with
  | reg2flop sz tg bo cx f r =>
    simp only [execFiles, writeConfig_params]
    split
    · cases sz <;> rfl
    · rfl
  | streamwait sr tv ts ws => rfl
  | streamwrcfg sel ra cr => rfl
  | cfgshiftmask mm am mw rot si ci =>
    obtain ⟨htarget, hscratch⟩ := h mm am mw rot si ci rfl
    simp only [execFiles, writeConfig_params, writeConfig_currentThread]
    split
    · next x hx =>
      rw [readConfig_writeConfig_ne (hscratch x hx).symm, readConfig_writeConfig_ne htarget.symm]
      simp only [State.writeConfig, RegFile.write_comm hcanon htarget]
    · rfl

theorem setThread_writeConfig (s : State) (t : Nat) (th : Thread) (a : RegAddr) (v : Word) :
    (s.setThread t th).writeConfig a v = (s.writeConfig a v).setThread t th := rfl

theorem execEffect_readStream (i : Instr) (th : Thread) (s : State) (a : RegAddr) :
    (execEffect i th s).readStream a = s.readStream a := by
  rw [State.readStream, execEffect_streams, State.readStream]

section overtaking
variable {i : Instr} {th : Thread} {s : State} {c : StreamCopy}
  (hfiles : execFiles i th.tcfg (s.writeConfig c.target (s.readStream c.source)) =
    (execFiles i th.tcfg s).writeConfig c.target (s.readStream c.source))
include hfiles

/-- The thread's own copy, performed before its instruction or after. -/
theorem execEffect_cfgPerform_self {rest : List StreamCopy}
    (hth : s.thread? s.currentThread = some th) (hp : th.pendingStreamWrCfg = c :: rest) :
    execEffect i { th with pendingStreamWrCfg := rest } (cfgPerform s.currentThread s) =
      cfgPerform s.currentThread (execEffect i th s) := by
  obtain ⟨rest', hp', hthread⟩ := execThread_pending i th hp
  rw [cfgPerform_of_pending hth hp, cfgPerform_of_pending (execEffect_thread?_self i th s hth) hp']
  have hset := execEffect_setThread_self i { th with pendingStreamWrCfg := rest }
    (s.writeConfig c.target (s.readStream c.source)) { th with pendingStreamWrCfg := rest }
  rw [writeConfig_currentThread] at hset
  rw [hset, execEffect_readStream]
  simp only [execEffect, State.retire, hfiles, hthread, setThread_writeConfig, setThread_setThread,
    writeConfig_currentThread, execFiles_currentThread]

/-- Another thread's copy, performed before an instruction or after. -/
theorem execEffect_cfgPerform_other {u : Nat} {tu : Thread} {rest : List StreamCopy}
    (hne : u ≠ s.currentThread) (hu : s.thread? u = some tu) (hp : tu.pendingStreamWrCfg = c :: rest) :
    execEffect i th (cfgPerform u s) = cfgPerform u (execEffect i th s) := by
  have hu' := (execEffect_thread?_ne i th s hne).trans hu
  have hset := execEffect_setThread_other i th (s.writeConfig c.target (s.readStream c.source)) hne
    { tu with pendingStreamWrCfg := rest }
  rw [cfgPerform_of_pending hu hp, cfgPerform_of_pending hu' hp, hset,
    execEffect_readStream]
  simp only [execEffect, State.retire, hfiles, setThread_writeConfig, writeConfig_currentThread]

end overtaking

/-- Settles O42: neither order changes what decides a refusal, and the effects commute, whosever the
copy is. -/
theorem overtakingCommutes : Obligations.OvertakingCommutes := by
  intro s s₁ i th tu u c rest hcanon hth hu hp hdisj h
  have hfiles : execFiles i th.tcfg (s.writeConfig c.target (s.readStream c.source)) =
      (execFiles i th.tcfg s).writeConfig c.target (s.readStream c.source) :=
    execFiles_writeConfig hcanon fun mm am mw rot si ci hi =>
      ⟨(hdisj mm am mw rot si ci hi).1, fun x hx =>
        (hdisj mm am mw rot si ci hi).2 x (scratchAddr?_eq_some.mp hx).1⟩
  have hperf := cfgPerform_of_pending hu hp
  have hp' : (cfgPerform u s).params = s.params := by rw [hperf]; rfl
  have hc' : (cfgPerform u s).currentThread = s.currentThread := by rw [hperf]; rfl
  by_cases hcur : u = s.currentThread
  · subst hcur
    obtain rfl : th = tu := Option.some.inj (hth.symm.trans hu)
    have hth' : (cfgPerform s.currentThread s).thread? s.currentThread =
        some { th with pendingStreamWrCfg := rest } := by
      rw [hperf]
      exact setThread_thread?_self _ _ _ hth
    rcases exec_congr i hp' hc' hth hth' rfl with ⟨hx, hx'⟩ | ⟨q, -, hx, -⟩ <;>
      cases h.symm.trans hx
    rw [hx', execEffect_cfgPerform_self hfiles hth hp]
  · have hth' : (cfgPerform u s).thread? s.currentThread = some th := by
      rw [hperf, setThread_thread?_ne _ _ _ (Ne.symm hcur)]
      exact hth
    rcases exec_congr i hp' hc' hth hth' rfl with ⟨hx, hx'⟩ | ⟨q, -, hx, -⟩ <;>
      cases h.symm.trans hx
    rw [hx', execEffect_cfgPerform_other hfiles hcur hu hp]

/-! ## Fairness -/

section fair
variable {acts : Nat → Action} {σ : Nat → State} {t : Nat}

/-- While a thread has a copy pending, a fair run comes to its perform step, and until then its
copies are only queued behind. -/
theorem FairRun.exists_perform (hfair : FairRun acts σ) {n : Nat} {th : Thread}
    (hth : (σ n).thread? t = some th) (hp : th.pendingStreamWrCfg ≠ []) :
    ∃ m th', n ≤ m ∧ acts m = .cfgPerform t ∧ (σ m).thread? t = some th' ∧
      th.pendingStreamWrCfg <+: th'.pendingStreamWrCfg := by
  obtain ⟨m, hnm, hm⟩ := hfair.performs t n
  obtain ⟨k, rfl⟩ := Nat.exists_eq_add_of_le hnm
  clear hnm
  induction k generalizing n th with
  | zero =>
    refine ⟨n, th, le_rfl, hm.resolve_right fun hoff => hp ?_, hth, List.prefix_rfl⟩
    simpa [enabled, hth] using hoff
  | succ k ih =>
    by_cases ha : acts n = .cfgPerform t
    · exact ⟨n, th, le_rfl, ha, hth, List.prefix_rfl⟩
    obtain ⟨th', hth', hrec⟩ := (perform_next (hfair.run n)).records t th hth
    have hprefix := hrec.queued ha
    obtain ⟨m, th'', hle, hact, hth'', hprefix'⟩ :=
      ih hth' (fun hnil => hp (List.prefix_nil.mp (hnil ▸ hprefix)))
        (by rwa [Nat.add_right_comm, Nat.add_assoc])
    exact ⟨m, th'', by omega, hact, hth'', hprefix.trans hprefix'⟩

end fair

/-- Settles O43, by induction on the copies queued before it: each perform step the run comes to
takes one of them away. -/
theorem pendingIsPerformed : Obligations.PendingIsPerformed := by
  intro acts σ n t th c hfair hth hc
  obtain ⟨before, after, hp⟩ := List.append_of_mem hc
  clear hc
  induction before generalizing n th after with
  | nil =>
    obtain ⟨m, th', hle, hact, hth', ext, hext⟩ := hfair.exists_perform hth (by simp [hp])
    have hp' : th'.pendingStreamWrCfg = c :: (after ++ ext) := by rw [← hext, hp]; rfl
    obtain ⟨s', hs', hread, -⟩ := performCopies (σ m) t th' c _ hth' hp'
    have hrun := hfair.run m
    rw [hact] at hrun
    obtain rfl := Host.Outcome.next.inj (hs'.symm.trans hrun)
    exact ⟨m, th', _, hle, hact, hth', hp', hread⟩
  | cons d before ih =>
    obtain ⟨m, th', hle, hact, hth', ext, hext⟩ := hfair.exists_perform hth (by simp [hp])
    obtain ⟨th'', hth'', hrec⟩ := (perform_next (hfair.run m)).records t th' hth'
    have hp'' : th''.pendingStreamWrCfg = before ++ c :: (after ++ ext) := by
      rw [hrec.performed hact, ← hext, hp]
      simp
    obtain ⟨m', th₃, rest', hle', h⟩ := ih (m + 1) th'' hth'' (after ++ ext) hp''
    exact ⟨m', th₃, rest', by omega, h⟩

end Sys2Proof.Machine
end

section
/-! SUPPORT. What a thread's step does not read. A relation between states that agrees on the
parameters, the stream registers and one thread's record, and that the writes of that thread's step
keep, relates the outcomes of its step: so for another thread's record, for the list of moves, and
for what the flops hold. -/

namespace Sys2Proof.Machine

/-- Two outcomes alike, their next states related. -/
inductive OutcomeRel (R : State → State → Prop) :
    Host.Outcome State Fault Refusal → Host.Outcome State Fault Refusal → Prop
  | next {a b : State} (h : R a b) : OutcomeRel R (.next a) (.next b)
  | fault (f : Fault) : OutcomeRel R (.fault f) (.fault f)
  | refused (q : Refusal) : OutcomeRel R (.refused q) (.refused q)

section outcomes
variable {R : State → State → Prop} {o : Host.Outcome State Fault Refusal}

theorem OutcomeRel.of_next {a : State} (h : OutcomeRel R (.next a) o) :
    ∃ b, o = .next b ∧ R a b := by
  cases h with
  | next h => exact ⟨_, rfl, h⟩

theorem OutcomeRel.of_refused {q : Refusal} (h : OutcomeRel R (.refused q) o) : o = .refused q := by
  cases h
  rfl

end outcomes

/-- A relation thread `t`'s step cannot see and keeps. -/
structure UnseenBy (t : Nat) (R : State → State → Prop) : Prop where
  params : ∀ {s s'}, R s s' → s'.params = s.params
  streams : ∀ {s s'}, R s s' → s'.streams = s.streams
  thread? : ∀ {s s'}, R s s' → s'.thread? t = s.thread? t
  setCurrent : ∀ {s s'}, R s s' → R { s with currentThread := t } { s' with currentThread := t }
  setThread : ∀ {s s'} (th), R s s' → R (s.setThread t th) (s'.setThread t th)
  files : ∀ {s s'} (i tcfg), R s s' → s.currentThread = t → s'.currentThread = t →
    R (execFiles i tcfg s) (execFiles i tcfg s')

section unseen
variable {t : Nat} {R : State → State → Prop} (hR : UnseenBy t R) {s s' : State} (h : R s s')
include hR h

theorem UnseenBy.exec {th : Thread} (i : Instr) (hc : s.currentThread = t)
    (hc' : s'.currentThread = t) (hth : s.thread? t = some th) :
    OutcomeRel R (exec i s) (exec i s') := by
  have hth' : s'.thread? t = some th := (hR.thread? h).trans hth
  subst hc
  rcases exec_congr i (hR.params h) hc' hth hth' rfl with ⟨hx, hx'⟩ | ⟨q, -, hx, hx'⟩ <;>
    rw [hx, hx']
  · have hfiles := hR.setThread { execThread i th with
      pc := (execThread i th).pc + 1, lastWasCfgShiftMask := execMark i th.tcfg }
      (hR.files i th.tcfg h rfl hc')
    refine .next ?_
    simpa only [execEffect, State.retire, execFiles_currentThread, hc'] using hfiles
  · exact .refused q

theorem UnseenBy.issue {th : Thread} (i : Instr) (hth : s.thread? t = some th) :
    OutcomeRel R (issue t th i s) (issue t th i s') := by
  have hcur := hR.setCurrent h
  have hv : gateVerdict s'.params s'.streams th i = gateVerdict s.params s.streams th i := by
    rw [hR.params h, hR.streams h]
  cases hverdict : gateVerdict s.params s.streams th i with
  | streamOutOfRange =>
    rw [issue_of_outOfRange hverdict, issue_of_outOfRange (hv.trans hverdict)]
    exact .refused _
  | hold =>
    rw [issue_of_hold hverdict, issue_of_hold (hv.trans hverdict)]
    exact .next h
  | notBlocked =>
    rw [issue_of_notBlocked hverdict, issue_of_notBlocked (hv.trans hverdict)]
    exact hR.exec hcur i rfl rfl hth
  | met =>
    rw [issue_of_met hverdict, issue_of_met (hv.trans hverdict)]
    by_cases hpol : s.params.latchClears = .always
    · have hpol' : s'.params.latchClears = .always := by rw [hR.params h, hpol]
      rw [if_pos hpol, if_pos hpol']
      exact hR.exec (hR.setThread { th with gate := none } hcur) i rfl rfl
        (setThread_thread?_self { s with currentThread := t } t _ hth)
    · have hpol' : ¬ s'.params.latchClears = .always := by rwa [hR.params h]
      rw [if_neg hpol, if_neg hpol']
      exact hR.exec hcur i rfl rfl hth

theorem UnseenBy.threadStep : OutcomeRel R (threadStep t s) (threadStep t s') := by
  cases hth : s.thread? t with
  | none =>
    simp only [Machine.threadStep, hR.thread? h, hth]
    exact .next h
  | some th =>
    have hth' : s'.thread? t = some th := (hR.thread? h).trans hth
    cases hw : th.prog[th.pc]? with
    | none =>
      rw [threadStep_of_end hth hw, threadStep_of_end hth' hw]
      exact .next h
    | some w =>
      cases hd : decode w with
      | refused e =>
        rw [threadStep_of_refused hth hw hd, threadStep_of_refused hth' hw hd]
        exact .refused _
      | instr i =>
        rw [threadStep_of_instr hth hw hd, threadStep_of_instr hth' hw hd]
        exact hR.issue h i hth

end unseen

/-- A relation no move can see and every move keeps. -/
structure Unseen (R : State → State → Prop) : Prop where
  byThread : ∀ t, UnseenBy t R
  writeConfig : ∀ {s s'} (a v), R s s' → R (s.writeConfig a v) (s'.writeConfig a v)
  writeStream : ∀ {s s'} (a v), R s s' → R (s.writeStream a v) (s'.writeStream a v)

section unseen
variable {R : State → State → Prop} (hR : Unseen R) {s s' : State} (h : R s s')
include hR h

theorem Unseen.cfgPerform (t : Nat) : R (cfgPerform t s) (cfgPerform t s') := by
  have hthread := (hR.byThread t).thread? h
  cases hth : s.thread? t with
  | none => simpa only [Machine.cfgPerform, hthread, hth] using h
  | some th =>
    have hth' := hthread.trans hth
    cases hp : th.pendingStreamWrCfg with
    | nil =>
      rw [cfgPerform_of_none hth hp, cfgPerform_of_none hth' hp]
      exact h
    | cons c rest =>
      have hread : s'.readStream c.source = s.readStream c.source := by
        rw [State.readStream, (hR.byThread t).streams h, State.readStream]
      rw [cfgPerform_of_pending hth hp, cfgPerform_of_pending hth' hp, hread]
      exact (hR.byThread t).setThread _ (hR.writeConfig _ _ h)

theorem Unseen.gateRelease (t : Nat) : R (gateRelease t s) (gateRelease t s') := by
  have hthread := (hR.byThread t).thread? h
  cases hth : s.thread? t with
  | none => simpa only [Machine.gateRelease, hthread, hth] using h
  | some th =>
    have hth' := hthread.trans hth
    have hsame : gateReleasable s' th = gateReleasable s th := by
      simp only [gateReleasable, (hR.byThread t).params h, (hR.byThread t).streams h]
    by_cases hrel : gateReleasable s th = true
    · rw [gateRelease_of_releasable hth hrel, gateRelease_of_releasable hth' (hsame.trans hrel)]
      exact (hR.byThread t).setThread _ h
    · have hrel' : ¬ gateReleasable s' th = true := by rwa [hsame]
      rw [gateRelease_of_not_releasable hth hrel, gateRelease_of_not_releasable hth' hrel']
      exact h

theorem Unseen.envStep (stream reg : Nat) (v : Word) :
    R (envStep stream reg v s) (envStep stream reg v s') := by
  simp only [Machine.envStep, (hR.byThread 0).params h]
  split
  · exact hR.writeStream _ _ h
  · exact h

theorem Unseen.perform (a : Action) : OutcomeRel R (perform a s) (perform a s') := by
  cases a with
  | threadStep t => exact (hR.byThread t).threadStep h
  | cfgPerform t => exact .next (hR.cfgPerform h t)
  | gateRelease t => exact .next (hR.gateRelease h t)
  | envStep stream reg v => exact .next (hR.envStep h stream reg v)

end unseen

/-! ## Another thread's record -/

theorem unseenBy_setThread_other {t u : Nat} (htu : t ≠ u) (x : Thread) :
    UnseenBy t fun s s' => s' = s.setThread u x where
  params := by rintro s _ rfl; rfl
  streams := by rintro s _ rfl; rfl
  thread? := by rintro s _ rfl; exact setThread_thread?_ne _ _ _ htu
  setCurrent := by rintro s _ rfl; rfl
  setThread := by rintro s _ th rfl; exact setThread_comm htu.symm ..
  files := by rintro s _ i tcfg rfl - -; exact execFiles_setThread ..

theorem threadStep_thread?_ne {s s' : State} {t u : Nat} (htu : t ≠ u)
    (h : threadStep t s = .next s') : s'.thread? u = s.thread? u := by
  rcases threadStep_outcome t s with hs | ⟨q, -, hs⟩ | ⟨th, w, i, g, -, -, -, -, hs⟩ <;>
    cases h.symm.trans hs
  · rfl
  · exact execEffect_thread?_ne i _ { s with currentThread := t } htu.symm

/-- Settles O53: another thread's record is unseen, and is no record the step writes. -/
theorem threadsArePrivate : Obligations.ThreadsArePrivate := by
  intro s t u x htu
  have hrel := (unseenBy_setThread_other htu x).threadStep (s := s) rfl
  refine ⟨fun s₁ h => ?_, fun r h => ?_⟩ <;> rw [perform] at h ⊢ <;> rw [h] at hrel
  · obtain ⟨_, hnext, rfl⟩ := hrel.of_next
    exact ⟨hnext, threadStep_thread?_ne htu h⟩
  · exact hrel.of_refused

/-! ## What the flops hold -/

/-- Equal but for what the flops hold. -/
def EqButFlops (s s' : State) : Prop := s' = { s with flops := s'.flops }

theorem execFiles_flops (i : Instr) (tcfg : ThreadConfig) (s : State) (f : RegFile) :
    EqButFlops (execFiles i tcfg s) (execFiles i tcfg { s with flops := f }) := by
  cases i with
  | reg2flop sz tg bo cx fi r =>
    simp only [execFiles]
    split
    · cases sz <;> rfl
    · rfl
  | streamwait sr tv ts ws => rfl
  | streamwrcfg sel ra cr => rfl
  | cfgshiftmask mm am mw rot si ci =>
    simp only [execFiles]
    split <;> rfl

theorem unseen_flops : Unseen EqButFlops where
  byThread t :=
    { params := fun h => by rw [h]
      streams := fun h => by rw [h]
      thread? := fun h => by rw [h]; rfl
      setCurrent := fun h => by rw [h]; rfl
      setThread := fun _ h => by rw [h]; rfl
      files := fun i tcfg h _ _ => by rw [h]; exact execFiles_flops .. }
  writeConfig a v h := by rw [h]; rfl
  writeStream a v h := by rw [h]; rfl

theorem sameButFlops_of_rel {o o' : Host.Outcome State Fault Refusal}
    (h : OutcomeRel EqButFlops o o') : SameButFlops o' o := by
  cases h with
  | next h => rw [h]; rfl
  | fault f => rfl
  | refused q => rfl

/-- Settles O54: the flops are unseen by every move, and by the schedule's choice of it. -/
theorem flopsAreWriteSink : Obligations.FlopsAreWriteSink := by
  intro s f
  have hnext : nextAction { s with flops := f } = nextAction s := rfl
  have hdrop : EqButFlops (dropAction s) (dropAction { s with flops := f }) := by
    unfold dropAction
    cases s.sched <;> rfl
  rw [step, step, hnext]
  exact sameButFlops_of_rel (unseen_flops.perform hdrop _)

/-! ## The list of moves -/

/-- Equal but for the list of moves. -/
def EqButSched (s s' : State) : Prop := s' = { s with sched := s'.sched }

theorem execFiles_sched (i : Instr) (tcfg : ThreadConfig) (s : State) (l : List Action) :
    EqButSched (execFiles i tcfg s) (execFiles i tcfg { s with sched := l }) := by
  cases i with
  | reg2flop sz tg bo cx fi r =>
    simp only [execFiles]
    split
    · cases sz <;> rfl
    · rfl
  | streamwait sr tv ts ws => rfl
  | streamwrcfg sel ra cr => rfl
  | cfgshiftmask mm am mw rot si ci =>
    simp only [execFiles]
    split <;> rfl

theorem unseen_sched : Unseen EqButSched where
  byThread t :=
    { params := fun h => by rw [h]
      streams := fun h => by rw [h]
      thread? := fun h => by rw [h]; rfl
      setCurrent := fun h => by rw [h]; rfl
      setThread := fun _ h => by rw [h]; rfl
      files := fun i tcfg h _ _ => by rw [h]; exact execFiles_sched .. }
  writeConfig a v h := by rw [h]; rfl
  writeStream a v h := by rw [h]; rfl

/-- A move makes the same next state whatever the list of moves holds. -/
theorem perform_sched {a : Action} {s s₁ : State} (h : perform a s = .next s₁) (l : List Action) :
    perform a { s with sched := l } = .next { s₁ with sched := l } := by
  have hrel := unseen_sched.perform (s := s) (s' := { s with sched := l }) rfl a
  rw [h] at hrel
  obtain ⟨s₂, hs₂, heq⟩ := hrel.of_next
  have hl : s₂.sched = l := (perform_next hs₂).sched
  rw [hs₂, heq, hl]

end Sys2Proof.Machine
end

section
/-! SUPPORT. The machine as a whole (70_reset_and_hazards.md section 4): which move a step makes, and
what the moves do on the states the statements speak of. -/

namespace Sys2Proof.Machine

/-- Settles O45: the two branches of the schedule's choice. -/
theorem stepMakesScheduledMove : Obligations.StepMakesScheduledMove := by
  refine fun s => ⟨fun a rest h => ?_, fun h => ?_⟩ <;>
    simp only [step, nextAction, dropAction, h]

/-- Settles O44: an attempt the gate does not block is exec of the instruction decoded. -/
theorem stepRunsDecodedInstruction : Obligations.StepRunsDecodedInstruction := by
  intro s t th w i rest hth hw hd hfree
  have hv : ∀ st, gateVerdict s.params st th i = .notBlocked := fun st => by
    cases hg : th.gate with
    | none => exact gateVerdict_of_no_latch hg
    | some l => exact gateVerdict_of_unmasked hg (hfree l hg)
  have hrun : ∀ s' : State, s'.params = s.params → s'.thread? t = some th →
      perform (.threadStep t) s' = exec i { s' with currentThread := t } := fun s' hp hth' => by
    rw [perform, threadStep_of_instr hth' hw hd, issue_of_notBlocked (hp ▸ hv _)]
  refine ⟨hrun s rfl hth, fun hsched => ?_⟩
  rw [(stepMakesScheduledMove s).1 _ _ hsched]
  exact hrun { s with sched := rest } rfl hth

/-- A word placed at a position is there. -/
theorem placeWord_getElem? (prog : List Word) (pc : Nat) (w : Word) :
    (placeWord prog pc w)[pc]? = some w := by
  have hlen : pc < (prog ++ List.replicate (pc + 1 - prog.length) 0).length := by
    rw [List.length_append, List.length_replicate]
    omega
  rw [placeWord, List.getElem?_set_self hlen]

theorem tableWord_toNat (w : Word) : tableWord 32 w.toNat = some w := by
  have hw := w.isLt
  rw [tableWord, Nat.mod_eq_of_lt hw, if_pos hw, BitVec.ofNat_toNat, BitVec.setWidth_eq]

/-- Settles O46: the placed word is at the thread's position, and its step heads the list. -/
theorem placedWordRunsNext : Obligations.PlacedWordRunsNext := by
  intro s th w i hth hg hd
  have hplaced := placeWord_getElem? th.prog th.pc w
  refine ⟨placeWord th.prog th.pc w, hplaced, ?_⟩
  rw [State.withFetchWord, tableWord_toNat]
  simp only [placeNext, hth]
  have hruns := stepRunsDecodedInstruction { s.setThread s.currentThread
    { th with prog := placeWord th.prog th.pc w } with
      sched := .threadStep s.currentThread :: s.sched } s.currentThread _ w i s.sched
    (setThread_thread?_self s _ _ hth) hplaced hd
  exact (hruns (by simp [hg])).2 rfl

/-- Settles O47: the step decodes before it asks the gate. -/
theorem decoderRefusesFirst : Obligations.DecoderRefusesFirst :=
  fun _ _ _ _ hth hw => ⟨threadStep_of_refused hth hw, threadStep_of_refused hth hw⟩

/-- Settles O52: the environment's step is one write of the stream registers. -/
theorem envStepSetsOneRegister : Obligations.EnvStepSetsOneRegister := by
  intro s stream reg v hstream hreg
  have henv : perform (.envStep stream reg v) s = .next (s.writeStream ⟨stream, reg⟩ v) := by
    rw [perform, envStep, if_pos ⟨hstream, hreg⟩]
  exact ⟨_, henv, RegFile.read_write_self .., fun a ha => RegFile.read_write_ne ha .., rfl⟩

/-- Settles O57: in a final state each program is at its end and nothing is pending. -/
theorem finalStaysFinal : Obligations.FinalStaysFinal := by
  intro s t hfinal
  cases hth : s.thread? t with
  | none => simp only [perform, threadStep, cfgPerform, hth, and_self]
  | some th =>
    obtain ⟨hpc, hp⟩ := hfinal th (List.mem_of_getElem? hth)
    have hend : th.prog[th.pc]? = none := List.getElem?_eq_none hpc.ge
    exact ⟨threadStep_of_end hth hend, congrArg Host.Outcome.next (cfgPerform_of_none hth hp)⟩

/-- A run of the machine is its first step, then the rest. -/
theorem core_run_of_step {s s₁ : State} (h : step s = .next s₁) (k : Nat) :
    Host.Core.run Sys2Proof.core (k + 1) s = Host.Core.run Sys2Proof.core k s₁ := by
  have hcore : Sys2Proof.core.step s = .next s₁ := h
  simp only [Host.Core.run, hcore]

/-- Settles O56, by induction on the moves: each step makes the move at the head of the list, and the
list is all that sets its next state apart from the move's own. -/
theorem runFollowsSchedule : Obligations.RunFollowsSchedule := by
  intro acts
  induction acts with
  | nil => exact fun _ _ _ h => h
  | cons a acts ih =>
    intro later s s' h
    cases hmove : perform a { s with sched := later } with
    | fault f => simp [runMoves, hmove] at h
    | refused r => simp [runMoves, hmove] at h
    | next s₁ =>
      have hkept : s₁.sched = later := (perform_next hmove).sched
      have hsame : ({ s₁ with sched := later } : State) = s₁ := by rw [← hkept]
      have hrest : runMoves acts { s₁ with sched := later } = .next s' := by
        simpa only [runMoves, hmove, hsame] using h
      have hstep : step { s with sched := a :: (acts ++ later) } =
          .next { s₁ with sched := acts ++ later } :=
        ((stepMakesScheduledMove _).1 a (acts ++ later) rfl).trans (perform_sched hmove _)
      rw [List.length_cons, List.cons_append, core_run_of_step hstep]
      exact ih later s₁ s' hrest

end Sys2Proof.Machine
end
